-- ==== Sys2Proof/Word.lean ====
section
/-! DEFINITION. The word types of the block: 32-bit words, bytes, register indices. -/

namespace Sys2Proof

/-- A 32-bit word: registers, memory words, `pc`, immediates and ALU values (R6, R10). -/
abbrev Word := BitVec 32

/-- One byte of the loader's memory image. -/
abbrev Byte := BitVec 8

/-- A register index, 0 to 31 (R12, R19). -/
abbrev RegIdx := Fin 32

end Sys2Proof
end

