-- ==== Sys2Proof/Config.lean ====
section
/-! DEFINITION. What is fixed for a whole run (R7), and the one free value of a step (R8). -/

namespace Sys2Proof

/-- The two configurations of the block (R2): V1 has J, V2 has LW and the base word. -/
inductive Variant where
  | v1
  | v2
  deriving DecidableEq, Repr

/-- Which value supplies bits 31:28 of a J target (R7, R87); `regRs` is the spec's default. -/
inductive JTopSource where
  | regRs
  | pcOfJ
  | pcOfJPlus4
  deriving DecidableEq, Repr

/-- The order in which the loader's bytes make a word. The block defines none (R40); the spec names
the parameter LOADER_BYTE_ORDER (D10, U17). -/
inductive ByteOrder where
  | little
  | big
  deriving DecidableEq, Repr

/-- The parameters of a run (R7, R120). LW_BASE is held in `State.base`; REGS0 and MEM0 are the
registers and memory a run starts from. -/
structure Config where
  /-- `VARIANT` -/
  variant : Variant
  /-- `MEM_WORDS`, written `N`: how many 32-bit words memory has. -/
  memWords : Nat
  /-- `JTopSource` -/
  jTopSource : JTopSource
  /-- `LOADER_BYTE_ORDER` -/
  loaderByteOrder : ByteOrder
  deriving DecidableEq, Repr

/-- The range R7 gives `MEM_WORDS`: `1 ≤ N ≤ 2^30`. -/
abbrev Config.Legal (c : Config) : Prop := 1 ≤ c.memWords ∧ c.memWords ≤ 2 ^ 30

/-- The configuration of `State.reset`. DESIGN CHOICE (log entries 2 and 6): the spec leaves VARIANT,
`N` and the loader's byte order open; `regRs` is its default for JTopSource. -/
def Config.reset : Config where
  variant := .v1
  memWords := 2 ^ 30
  jTopSource := .regRs
  loaderByteOrder := .little

/-- `UnknownFunctDraw` (R8): the value of the n-th draw, under no law. A free value (log entry 1). -/
opaque Config.unknownFunctDraw : Nat → Word

end Sys2Proof
end

