-- ==== Sys2Proof/Syntax.lean ====
section
/-! DEFINITION. The instructions, one constructor per row of spec/opcode_table.json. -/

namespace Sys2Proof

/-- The decoded instructions. A field named `ignored` holds the bits of the word that no rule reads
(R55, R56, R72): they are kept so that words and instructions correspond one to one. -/
inductive Instr where
  /-- ADD rd, rs, rt (R92) -/
  | add (rs rt rd : RegIdx) (ignored : BitVec 5)
  /-- SUB rd, rs, rt (R93) -/
  | sub (rs rt rd : RegIdx) (ignored : BitVec 5)
  /-- R-type with any other funct (R95) -/
  | rtypeOther (rs rt rd : RegIdx) (ignored : BitVec 5) (funct : BitVec 6)
  /-- ADDI rt, rs, imm (R94) -/
  | addi (rs rt : RegIdx) (imm16 : BitVec 16)
  /-- BNE rs, rt, imm (R97) -/
  | bne (rs rt : RegIdx) (imm16 : BitVec 16)
  /-- J rs, imm (R98), V1 -/
  | j (rs : RegIdx) (ignored : BitVec 5) (imm16 : BitVec 16)
  /-- LW rt, imm(rs) (R96), V2 -/
  | lw (rs rt : RegIdx) (imm16 : BitVec 16)
  /-- HLT (R99) -/
  | hlt (ignored : BitVec 26)
  /-- An opcode outside the variant's control table (R100) -/
  | unrecognized (opcode : BitVec 6) (ignored : BitVec 26)
  deriving DecidableEq, Repr

/-- The name of an instruction's row in spec/opcode_table.json. -/
inductive Mnemonic where
  | ADD | SUB | RTYPE_OTHER | ADDI | BNE | J | LW | HLT | UNRECOGNIZED
  deriving DecidableEq, Repr

/-- The row of spec/opcode_table.json an instruction belongs to. -/
def Instr.mnemonic : Instr → Mnemonic
  | .add _ _ _ _ => .ADD
  | .sub _ _ _ _ => .SUB
  | .rtypeOther _ _ _ _ _ => .RTYPE_OTHER
  | .addi _ _ _ => .ADDI
  | .bne _ _ _ => .BNE
  | .j _ _ _ => .J
  | .lw _ _ _ => .LW
  | .hlt _ => .HLT
  | .unrecognized _ _ => .UNRECOGNIZED

end Sys2Proof
end

