-- ==== Sys2Proof/WellFormed.lean ====
section
/-! DEFINITION. Which instructions a variant has: those that some word decodes to. -/

namespace Sys2Proof

/-- The opcodes of a variant's control table (R59, R69, R70). -/
def recognizedOpcodes : Variant → List (BitVec 6)
  | .v1 => [0x00#6, 0x08#6, 0x05#6, 0x02#6, 0x3F#6]
  | .v2 => [0x00#6, 0x08#6, 0x05#6, 0x23#6, 0x3F#6]

/-- An instruction is well formed in a variant when the variant has it: J in V1 and LW in V2 only
(R69), another funct than ADD's and SUB's in RTYPE_OTHER (R95), an opcode outside the table in
UNRECOGNIZED (R100). -/
def Instr.wf (v : Variant) : Instr → Bool
  | .add _ _ _ _ => true
  | .sub _ _ _ _ => true
  | .rtypeOther _ _ _ _ funct => funct != 0x20#6 && funct != 0x22#6
  | .addi _ _ _ => true
  | .bne _ _ _ => true
  | .j _ _ _ => v == .v1
  | .lw _ _ _ => v == .v2
  | .hlt _ => true
  | .unrecognized opcode _ => !(recognizedOpcodes v).contains opcode

end Sys2Proof
end

