-- ==== Sys2Proof/Decode.lean ====
section
/-! DEFINITION. The fields of a word (R55), the decoder (R70, R71, R76), the encoder, and the opcode
table of spec/opcode_table.json as data. Decode is total and rejects nothing (R71, R72). -/

namespace Sys2Proof

/-! ### The fields of a word (R55) -/

/-- `opcode`, bits 31:26. -/
def opcodeOf (w : Word) : BitVec 6 := w.extractLsb' 26 6

/-- The register index a 5-bit field names. -/
def regOfBits (b : BitVec 5) : RegIdx := b.toFin

/-- The 5-bit field that names a register. -/
def bitsOfReg (r : RegIdx) : BitVec 5 := BitVec.ofFin r

/-- `rs`, bits 25:21. -/
def rsOf (w : Word) : RegIdx := regOfBits (w.extractLsb' 21 5)

/-- `rt`, bits 20:16. -/
def rtOf (w : Word) : RegIdx := regOfBits (w.extractLsb' 16 5)

/-- `rd`, bits 15:11. -/
def rdOf (w : Word) : RegIdx := regOfBits (w.extractLsb' 11 5)

/-- Bits 10:6, which no rule reads. -/
def bits10to6 (w : Word) : BitVec 5 := w.extractLsb' 6 5

/-- `funct`, bits 5:0. -/
def functOf (w : Word) : BitVec 6 := w.extractLsb' 0 6

/-- `imm16`, bits 15:0. -/
def imm16Of (w : Word) : BitVec 16 := w.extractLsb' 0 16

/-- Bits 20:16 as bits, which J ignores (R56). -/
def bits20to16 (w : Word) : BitVec 5 := w.extractLsb' 16 5

/-- Bits 25:0, which HLT and the no-op ignore (R56, R100). -/
def bits25to0 (w : Word) : BitVec 26 := w.extractLsb' 0 26

/-! ### The decoder -/

/-- Opcode 0x00: the operation is selected by `funct` (R60, R70). -/
def decodeRType (w : Word) : Instr :=
  if functOf w = 0x20#6 then .add (rsOf w) (rtOf w) (rdOf w) (bits10to6 w)
  else if functOf w = 0x22#6 then .sub (rsOf w) (rtOf w) (rdOf w) (bits10to6 w)
  else .rtypeOther (rsOf w) (rtOf w) (rdOf w) (bits10to6 w) (functOf w)

/-- The instruction a word is, in a variant (R70, R76). Opcode 0x02 is J in V1 only and opcode 0x23
is LW in V2 only (R69); every other opcode is the no-op (R100). -/
def decode (v : Variant) (w : Word) : Instr :=
  if opcodeOf w = 0x00#6 then decodeRType w
  else if opcodeOf w = 0x08#6 then .addi (rsOf w) (rtOf w) (imm16Of w)
  else if opcodeOf w = 0x05#6 then .bne (rsOf w) (rtOf w) (imm16Of w)
  else if opcodeOf w = 0x02#6 ∧ v = .v1 then .j (rsOf w) (bits20to16 w) (imm16Of w)
  else if opcodeOf w = 0x23#6 ∧ v = .v2 then .lw (rsOf w) (rtOf w) (imm16Of w)
  else if opcodeOf w = 0x3F#6 then .hlt (bits25to0 w)
  else .unrecognized (opcodeOf w) (bits25to0 w)

/-! ### The encoder -/

/-- A word of the R format (R56). -/
def encodeR (rs rt rd : RegIdx) (ignored : BitVec 5) (funct : BitVec 6) : Word :=
  0x00#6 ++ bitsOfReg rs ++ bitsOfReg rt ++ bitsOfReg rd ++ ignored ++ funct

/-- A word of the I format (R56); J has the same layout with bits 20:16 unused. -/
def encodeI (opcode : BitVec 6) (rs : RegIdx) (bits20to16 : BitVec 5) (imm16 : BitVec 16) : Word :=
  opcode ++ bitsOfReg rs ++ bits20to16 ++ imm16

/-- A word of which only the opcode is read (R56). -/
def encodeBare (opcode : BitVec 6) (ignored : BitVec 26) : Word :=
  opcode ++ ignored

/-- The word of an instruction, from the formats of R56 and the opcodes of R70. -/
def encode : Instr → Word
  | .add rs rt rd g => encodeR rs rt rd g 0x20#6
  | .sub rs rt rd g => encodeR rs rt rd g 0x22#6
  | .rtypeOther rs rt rd g funct => encodeR rs rt rd g funct
  | .addi rs rt imm => encodeI 0x08#6 rs (bitsOfReg rt) imm
  | .bne rs rt imm => encodeI 0x05#6 rs (bitsOfReg rt) imm
  | .j rs g imm => encodeI 0x02#6 rs g imm
  | .lw rs rt imm => encodeI 0x23#6 rs (bitsOfReg rt) imm
  | .hlt g => encodeBare 0x3F#6 g
  | .unrecognized opcode g => encodeBare opcode g

/-! ### The opcode table as data -/

/-- One row of spec/opcode_table.json. -/
structure TableRow where
  mnemonic : Mnemonic
  matchBits : Word
  mask : Word
  variants : List Variant
  deriving DecidableEq, Repr

/-- The rows of spec/opcode_table.json, those of a lower decode_order first. -/
def opcodeTable : List TableRow :=
  [ ⟨.ADD, 0x00000020, 0xFC00003F, [.v1, .v2]⟩,
    ⟨.SUB, 0x00000022, 0xFC00003F, [.v1, .v2]⟩,
    ⟨.ADDI, 0x20000000, 0xFC000000, [.v1, .v2]⟩,
    ⟨.BNE, 0x14000000, 0xFC000000, [.v1, .v2]⟩,
    ⟨.J, 0x08000000, 0xFC000000, [.v1]⟩,
    ⟨.LW, 0x8C000000, 0xFC000000, [.v2]⟩,
    ⟨.HLT, 0xFC000000, 0xFC000000, [.v1, .v2]⟩,
    ⟨.RTYPE_OTHER, 0x00000000, 0xFC000000, [.v1, .v2]⟩,
    ⟨.UNRECOGNIZED, 0x00000000, 0x00000000, [.v1, .v2]⟩ ]

/-- A word takes a row in a variant when the row is the variant's and its masked bits match. -/
def TableRow.takes (r : TableRow) (v : Variant) (w : Word) : Bool :=
  r.variants.contains v && (w &&& r.mask == r.matchBits)

/-! ### The host's view of the decoder -/

/-- The variant in which a word stands for its own row of the table: V1 for opcode 0x02 (J), V2 for
opcode 0x23 (LW), and the given one for every other word (log entry 10). -/
def launchVariant (v : Variant) (w : Word) : Variant :=
  if opcodeOf w = 0x02#6 then .v1 else if opcodeOf w = 0x23#6 then .v2 else v

/-- The word whose low `nbits` bits are `w`, the rest zero. -/
def tableWord (nbits w : Nat) : Word := BitVec.ofNat 32 (w % 2 ^ nbits)

/-- The instruction the decoder reads from a table word, in the variant that has its row. The block
reads an instruction as one whole word (R41), so no byte order enters. -/
def decodeTableWord (nbits w : Nat) : Option Instr :=
  some (decode (launchVariant Config.reset.variant (tableWord nbits w)) (tableWord nbits w))

end Sys2Proof
end

