-- ==== Sys2Proof/Machine/State.lean ====
section
/-! DEFINITION. The state of the block (R35, R36), the reset state, and why a step can stop. -/

namespace Sys2Proof.Machine

/-- The run status (R26). The last three are terminal. -/
inductive RunStatus where
  /-- `RUNNING` -/
  | running
  /-- `HALTED`: HLT was fetched (R104). -/
  | halted
  /-- `OUT_OF_BOUNDS`: the fetch was outside memory (R103). -/
  | outOfBounds
  /-- `FAULT_DATA_OOB`: LW was outside memory, the spec's own status (R102). -/
  | faultDataOob
  deriving DecidableEq, Repr

/-- Memory as the loader's bytes (R30, R45): word `k` stands at byte addresses `4k` to `4k+3`.
`Memory.wf` is its canonical form; an address that is not listed reads as `unlistedByte`. -/
abbrev Memory := List Host.Cell

/-- What a byte that is not listed reads as. DESIGN CHOICE (log entry 5): any image MEM0 can still
be written in this form, so only the reset memory rests on the value. -/
def unlistedByte : Byte := 0

/-- The state of the block (R35), the parameters of the run it is launched with (R7), and the model's
own count of draws. -/
@[ext]
structure State where
  /-- The parameters of the run; no step changes them (R120). -/
  config : Config
  /-- `x[0]` to `x[31]` (R19); none is hard-wired (R20). -/
  regs : Vector Word 32
  /-- `pc`, a byte address (R23). -/
  pc : Word
  /-- `status` (R26). -/
  status : RunStatus
  /-- `base`, V2's auxiliary base word, holding LW_BASE (R27). In V1 nothing reads it. -/
  base : Word
  /-- `mem` (R30). -/
  mem : Memory
  /-- The model's own: how many values of `UnknownFunctDraw` (R8) were drawn (log entry 1). -/
  draws : Nat
  deriving DecidableEq, Repr

/-- Why a step can stop with a fault. Nothing raises one: the block has no trap mechanism, and each of
its three terminal events is a run status, a next state (R101). Safe: it can only make a claim about
faults vacuous. -/
inductive Fault where
  deriving DecidableEq, Repr

/-- Why a step can be refused. -/
inductive Refusal where
  /-- Raised by `exec` for an instruction that has no meaning yet; no arm raises it now. Safe: a run
  that stops here proves nothing of what follows. -/
  | notModelled (mnemonic : String)
  deriving DecidableEq, Repr

/-- The outcome of one step of this machine. -/
abbrev StepOutcome := Host.Outcome State Fault Refusal

/-- The state right after reset: `pc = 0`, `status = RUNNING` (R117). The registers, memory, base word
and configuration are launch inputs without a reset value (R34, R118 to R120): registers, base word
and memory are zero and the configuration is `Config.reset` by DESIGN CHOICE (log entries 2 to 6). -/
def State.reset : State where
  config := Config.reset
  regs := Vector.replicate 32 0
  pc := 0
  status := .running
  base := 0
  mem := []
  draws := 0

end Sys2Proof.Machine
end

