-- ==== Sys2Proof/Machine/Ops.lean ====
section
/-! DEFINITION. The named operations over memory, registers, `pc` and `status`, and launching a run. -/

namespace Sys2Proof.Machine

/-! ### Memory: the loader's bytes and the block's words -/

/-- The canonical form: addresses strictly rising, and no entry equal to what it would read as
unlisted. -/
abbrev Memory.wf (m : Memory) : Prop :=
  m.Pairwise (fun c d => c.1 < d.1) ∧ ∀ c ∈ m, c.2 ≠ unlistedByte

/-- Every listed byte lies in a memory of `n` words, at an address below `4·n` (R45). -/
abbrev Memory.Within (m : Memory) (n : Nat) : Prop := ∀ c ∈ m, c.1 < 4 * n

/-- The byte at an address. -/
def Memory.readByte : Memory → Nat → Byte
  | [], _ => unlistedByte
  | (a, b) :: m, x => if x = a then b else Memory.readByte m x

/-- Sets the byte at an address and keeps the canonical form. -/
def Memory.writeByte : Memory → Nat → Byte → Memory
  | [], x, v => if v = unlistedByte then [] else [(x, v)]
  | (a, b) :: m, x, v =>
    if x < a then (if v = unlistedByte then (a, b) :: m else (x, v) :: (a, b) :: m)
    else if x = a then (if v = unlistedByte then m else (x, v) :: m)
    else (a, b) :: Memory.writeByte m x v

/-- Four bytes, the one at the lowest address first, as one word. -/
def joinBytes (o : ByteOrder) (b0 b1 b2 b3 : Byte) : Word :=
  match o with
  | .little => b3 ++ b2 ++ b1 ++ b0
  | .big => b0 ++ b1 ++ b2 ++ b3

/-- Byte `i` of a word, counted from the lowest address. -/
def byteOfWord (o : ByteOrder) (w : Word) (i : Nat) : Byte :=
  match o with
  | .little => w.extractLsb' (8 * i) 8
  | .big => w.extractLsb' (8 * (3 - i)) 8

/-- `mem[k]`, the whole word at byte addresses `4k` to `4k+3` (R40, R45). -/
def Memory.readWord (o : ByteOrder) (m : Memory) (k : Nat) : Word :=
  joinBytes o (m.readByte (4 * k)) (m.readByte (4 * k + 1)) (m.readByte (4 * k + 2)) (m.readByte (4 * k + 3))

/-- Places a word at word index `k`: the loader's write. No instruction uses it (R39). -/
def Memory.writeWord (o : ByteOrder) (m : Memory) (k : Nat) (w : Word) : Memory :=
  (((m.writeByte (4 * k) (byteOfWord o w 0)).writeByte (4 * k + 1) (byteOfWord o w 1)).writeByte
    (4 * k + 2) (byteOfWord o w 2)).writeByte (4 * k + 3) (byteOfWord o w 3)

/-- The loader's writes of consecutive words from word index `k` on. -/
def Memory.writeWords (o : ByteOrder) : Memory → Nat → List Word → Memory
  | m, _, [] => m
  | m, k, w :: ws => Memory.writeWords o (m.writeWord o k w) (k + 1) ws

/-! ### Registers, `pc`, `status`, the draw -/

/-- Reads `x[r]` (R12); register 0 is an ordinary register (R20). -/
def State.reg (s : State) (r : RegIdx) : Word := s.regs[r]

/-- Writes `x[r]` (R12); register 0 is an ordinary register (R20). -/
def State.setReg (s : State) (r : RegIdx) (v : Word) : State := { s with regs := s.regs.set r v }

/-- Sets `pc`. -/
def State.setPc (s : State) (t : Word) : State := { s with pc := t }

/-- The default advance, `pc <- pc + 4` modulo 2^32 (R24, R86). -/
def State.advance (s : State) : State := s.setPc (s.pc + 4)

/-- A terminal event, the block's only exceptional event: it sets `status` and changes nothing else.
No state is saved, nothing is vectored, and `pc` keeps the address of what ended the run (R108). -/
def State.endRun (s : State) (st : RunStatus) : State := { s with status := st }

/-- The free 32-bit input of this step (R8). -/
def State.draw (s : State) : Word := Config.unknownFunctDraw s.draws

/-- The draw was used; the next one is fresh (R8). -/
def State.takeDraw (s : State) : State := { s with draws := s.draws + 1 }

/-! ### Memory accesses -/

/-- `mem[k]` of the state's memory. -/
def State.word (s : State) (k : Nat) : Word := s.mem.readWord s.config.loaderByteOrder k

/-- The word at byte address `a`, or none where the word index `a / 4` is at or above `N`. Bits 1:0 of
the address are dropped (R37, R38, R42, R43). -/
def State.wordAt (s : State) (a : Word) : Option Word :=
  if a.toNat / 4 < s.config.memWords then some (s.word (a.toNat / 4)) else none

/-- `Fetch(pc)` (R37), none for OUT_OF_RANGE. The source's defensive zero word is discarded there. -/
def State.fetch (s : State) : Option Word := s.wordAt s.pc

/-- `MemRead(a, 4)` (R38), none where it raises `DataOutOfBounds(a)`. -/
def State.memRead (s : State) (a : Word) : Option Word := s.wordAt a

/-! ### Launching a run (R32, R124) -/

/-- The state a run starts from: the configuration, LW_BASE, REGS0 and MEM0 are inputs, `pc = 0` and
`status = RUNNING` (R34, R117). -/
def State.launch (config : Config) (lwBase : Word) (regs0 : Vector Word 32) (mem0 : List Word) : State where
  config := config
  regs := regs0
  pc := 0
  status := .running
  base := lwBase
  mem := Memory.writeWords config.loaderByteOrder [] 0 mem0
  draws := 0

/-- The numbers the spec assigns to the statuses (R26, R101); no program can read them. -/
def RunStatus.code : RunStatus → Nat
  | .running => 0
  | .halted => 1
  | .outOfBounds => 2
  | .faultDataOob => 3

end Sys2Proof.Machine
end

