-- ==== Sys2Proof/Machine/Flags.lean ====
section
/-! DEFINITION. The ALU (R90, R91) and the branch condition. The block has no flags (R28): the
condition is computed from the ALU result in each cycle and is not kept. -/

namespace Sys2Proof.Machine

/-- The ALU tags (R67). The decoder produces `add` and `sub`; `reset` is the value the tag holds after
the reset of the control signals, which the spec does not identify; `slt`, `bne` and `hlt` are V1's
dead tags. -/
inductive AluTag where
  | add
  | sub
  | reset
  | slt
  | bne
  | hlt
  deriving DecidableEq, Repr

/-- The ALU: sums and differences modulo 2^32 (R90), 0 for the dead tags, and for the reset tag the
step's free input (R91). -/
def alu (draw a b : Word) (op : AluTag) : Word :=
  match op with
  | .add => a + b
  | .sub => a - b
  | .reset => draw
  | .slt => 0
  | .bne => 0
  | .hlt => 0

/-- The branch is taken when the ALU result is not zero (R79). -/
def branchTaken (aluResult : Word) : Bool := aluResult != 0

end Sys2Proof.Machine
end

