-- ==== Sys2Proof/Machine/Operands.lean ====
section
/-! DEFINITION. Immediates and the addresses made from them: branch target, jump target, load address. -/

namespace Sys2Proof.Machine

/-- `sext_32` (R11, R57): the field OR'd with 0xFFFF0000 when bit 15 is set, and the raw value
otherwise. -/
def sext32 (v : BitVec 16) : Word :=
  if v.getLsbD 15 then v.setWidth 32 ||| 0xFFFF0000 else v.setWidth 32

/-- `zext_32` (R11). The block performs no zero-extension. -/
def zext32 (v : BitVec 16) : Word := v.setWidth 32

/-- The target of a taken branch at address `a` (R79, R97): relative to `a + 4`. -/
def branchTarget (a imm : Word) : Word := a + 4 + (imm <<< 2)

/-- `T` of R87 for a J at address `a`: the `pc` that step 1 left, `a`, or `a + 4`. -/
def jumpTop (src : JTopSource) (a pcAfterStep1 : Word) : Word :=
  match src with
  | .regRs => pcAfterStep1
  | .pcOfJ => a
  | .pcOfJPlus4 => a + 4

/-- The direct-jump rule (R87). -/
def directTarget (top imm : Word) : Word := (top &&& 0xF0000000#32) ||| (imm <<< 2)

/-- The byte address of LW: the base word plus the ALU's sum, each sum modulo 2^32 (R81, R96). -/
def loadAddress (base aluResult : Word) : Word := base + aluResult

end Sys2Proof.Machine
end

