-- ==== Sys2Proof/Machine/Arith.lean ====
section
/-! DEFINITION. ADD, SUB, R-type of another funct, ADDI (41_arith.md). -/

namespace Sys2Proof.Machine

/-- `x[r] <- v`, then the default advance: the write-back of R82 and R86. -/
def State.writeBack (s : State) (r : RegIdx) (v : Word) : State := (s.setReg r v).advance

/-- ADD (R92). -/
def execAdd (rs rt rd : RegIdx) (s : State) : StepOutcome :=
  .next (s.writeBack rd (alu s.draw (s.reg rs) (s.reg rt) .add))

/-- SUB (R93). -/
def execSub (rs rt rd : RegIdx) (s : State) : StepOutcome :=
  .next (s.writeBack rd (alu s.draw (s.reg rs) (s.reg rt) .sub))

/-- R-type of another funct (R95): `x[rd]` gets the step's free input, and the draw is used up. -/
def execRtypeOther (rs rt rd : RegIdx) (s : State) : StepOutcome :=
  .next ((s.writeBack rd (alu s.draw (s.reg rs) (s.reg rt) .reset)).takeDraw)

/-- ADDI (R94). -/
def execAddi (rs rt : RegIdx) (imm16 : BitVec 16) (s : State) : StepOutcome :=
  .next (s.writeBack rt (alu s.draw (s.reg rs) (sext32 imm16) .add))

end Sys2Proof.Machine
end

