-- ==== Sys2Proof/Machine/ControlFlow.lean ====
section
/-! DEFINITION. BNE, J, HLT and the unrecognized opcodes (43_control.md, 44_unrecognized.md). -/

namespace Sys2Proof.Machine

/-- BNE (R97). -/
def execBne (rs rt : RegIdx) (imm16 : BitVec 16) (s : State) : StepOutcome :=
  if branchTaken (alu s.draw (s.reg rs) (s.reg rt) .sub) then
    .next (s.setPc (branchTarget s.pc (sext32 imm16)))
  else .next s.advance

/-- Step 1 of the Execution Unit for J: `pc <- x[rs]` (R78). -/
def registerJump (rs : RegIdx) (s : State) : State := s.setPc (s.reg rs)

/-- The Execution Loop's direct-jump rule for a J at address `a`, on the `pc` that step 1 left (R87). -/
def directJump (a imm : Word) (s : State) : State :=
  s.setPc (directTarget (jumpTop s.config.jTopSource a s.pc) imm)

/-- J (R98): the two jump rules in the source's order. In V2 its opcode is unrecognized and the
instruction is a no-op (R69, R100; log entry 8). -/
def execJ (rs : RegIdx) (imm16 : BitVec 16) (s : State) : StepOutcome :=
  match s.config.variant with
  | .v1 => .next (directJump s.pc (sext32 imm16) (registerJump rs s))
  | .v2 => .next s.advance

/-- HLT (R99): the run ends, nothing else changes. -/
def execHlt (s : State) : StepOutcome := .next (s.endRun .halted)

/-- An unrecognized opcode (R100): only the default advance. The value that step 3 computes from `x[rs]` and
`x[rt]` is discarded, so it is no part of the net effect; `executionUnit` computes it. -/
def execUnrecognized (s : State) : StepOutcome := .next s.advance

end Sys2Proof.Machine
end

