-- ==== Sys2Proof/Machine/Load.lean ====
section
/-! DEFINITION. LW (42_load.md). -/

namespace Sys2Proof.Machine

/-- The byte address of an LW (R96): `base + x[rs] + sext_32(imm16)` modulo 2^32. -/
def lwAddress (rs : RegIdx) (imm16 : BitVec 16) (s : State) : Word :=
  loadAddress s.base (alu s.draw (s.reg rs) (sext32 imm16) .add)

/-- LW of V2 (R96): loads the whole word that holds the byte address, or ends the run with
FAULT_DATA_OOB and changes nothing else (R102). -/
def loadWord (rs rt : RegIdx) (imm16 : BitVec 16) (s : State) : State :=
  match s.memRead (lwAddress rs imm16 s) with
  | some w => s.writeBack rt w
  | none => s.endRun .faultDataOob

/-- LW (R96). In V1 its opcode is unrecognized and the instruction is a no-op (R69, R100; log entry 8). -/
def execLw (rs rt : RegIdx) (imm16 : BitVec 16) (s : State) : StepOutcome :=
  match s.config.variant with
  | .v1 => .next s.advance
  | .v2 => .next (loadWord rs rt imm16 s)

end Sys2Proof.Machine
end

