-- ==== Sys2Proof/Machine/Dispatch.lean ====
section
/-! DEFINITION. One arm per instruction. -/

namespace Sys2Proof.Machine

/-- The effect of one decoded instruction on a running state (R86 to R88, R92 to R100). -/
def exec (i : Instr) (s : State) : Host.Outcome State Fault Refusal :=
  match i with
  | .add rs rt rd _ => Sys2Proof.Machine.execAdd rs rt rd s
  | .sub rs rt rd _ => Sys2Proof.Machine.execSub rs rt rd s
  | .rtypeOther rs rt rd _ _ => Sys2Proof.Machine.execRtypeOther rs rt rd s
  | .addi rs rt imm16 => Sys2Proof.Machine.execAddi rs rt imm16 s
  | .bne rs rt imm16 => Sys2Proof.Machine.execBne rs rt imm16 s
  | .j rs _ imm16 => Sys2Proof.Machine.execJ rs imm16 s
  | .lw rs rt imm16 => Sys2Proof.Machine.execLw rs rt imm16 s
  | .hlt _ => Sys2Proof.Machine.execHlt s
  | .unrecognized _ _ => Sys2Proof.Machine.execUnrecognized s

end Sys2Proof.Machine
end

