-- ==== Sys2Proof/Machine/Step.lean ====
section
/-! DEFINITION. One cycle of the Execution Loop (R84 to R88), and placing the next instruction. -/

namespace Sys2Proof.Machine

/-- One cycle. While running: the fetch bound comes first (R84), then decode, halt and execution
(R85, R86). At a terminal status no cycle is taken and no state changes (R16, R26; log entry 7). -/
def step (s : State) : Host.Outcome State Fault Refusal :=
  match s.status with
  | .running =>
    match s.fetch with
    | none => .next (s.endRun .outOfBounds)
    | some w => exec (decode s.config.variant w) s
  | .halted => .next s
  | .outOfBounds => .next s
  | .faultDataOob => .next s

/-- The loader's part for one instruction (log entry 10): the word stands where the next cycle
fetches, and the launch inputs this needs are set, a running block, a memory that reaches `pc`, and
for J and LW the variant that has the instruction. -/
def State.withFetchWord (s : State) (nbits w : Nat) : State :=
  { s with
    status := .running
    config := { s.config with
      variant := launchVariant s.config.variant (tableWord nbits w)
      memWords := max s.config.memWords (s.pc.toNat / 4 + 1) }
    mem := s.mem.writeWord s.config.loaderByteOrder (s.pc.toNat / 4) (tableWord nbits w) }

end Sys2Proof.Machine
end

