-- ==== Sys2Proof/Machine/Control.lean ====
section
/-! DEFINITION. The decoded fields and the Control Unit as the spec writes them (R55, R58 to R69, R76). -/

namespace Sys2Proof.Machine

/-- The decoded fields of a word (R55, R57, R76): sliced alike from every word. -/
structure Fields where
  opcode : BitVec 6
  rs : RegIdx
  rt : RegIdx
  rd : RegIdx
  funct : BitVec 6
  /-- the sign-extended immediate -/
  imm : Word
  deriving DecidableEq, Repr

/-- Slices a word into its fields (R76). -/
def decodeFields (w : Word) : Fields where
  opcode := opcodeOf w
  rs := rsOf w
  rt := rtOf w
  rd := rdOf w
  funct := functOf w
  imm := sext32 (imm16Of w)

/-- The control-signal record `cs` (R58). `memRead` and `memWrite` are dead signals (R68); `jump` stays
false in V2, which has no such signal. -/
structure ControlSignals where
  regDst : Bool
  aluSrc : Bool
  memtoReg : Bool
  regWrite : Bool
  memRead : Bool
  memWrite : Bool
  branch : Bool
  jump : Bool
  aluOp : AluTag
  deriving DecidableEq, Repr

/-- Every field at zero or false, the tag at its reset value (R59). -/
def ControlSignals.cleared : ControlSignals where
  regDst := false
  aluSrc := false
  memtoReg := false
  regWrite := false
  memRead := false
  memWrite := false
  branch := false
  jump := false
  aluOp := .reset

/-- The tag of an R-type word: ADD, SUB, or not set (R60). -/
def rTypeAluOp (funct : BitVec 6) : AluTag :=
  if funct = 0x20#6 then .add else if funct = 0x22#6 then .sub else .reset

/-- The control table (R59 to R66, R69, R76): the cleared record, overwritten by the opcode's row. -/
def controlSignals (v : Variant) (opcode funct : BitVec 6) : ControlSignals :=
  if opcode = 0x00#6 then
    { ControlSignals.cleared with regDst := true, regWrite := true, aluOp := rTypeAluOp funct }
  else if opcode = 0x08#6 then
    { ControlSignals.cleared with aluSrc := true, regWrite := true, aluOp := .add }
  else if opcode = 0x05#6 then
    { ControlSignals.cleared with branch := true, aluOp := .sub }
  else if opcode = 0x02#6 ∧ v = .v1 then
    { ControlSignals.cleared with jump := true }
  else if opcode = 0x23#6 ∧ v = .v2 then
    { ControlSignals.cleared with aluSrc := true, memtoReg := true, regWrite := true, aluOp := .add }
  else ControlSignals.cleared

end Sys2Proof.Machine
end

