-- ==== Sys2Proof/Machine/Datapath.lean ====
section
/-! DEFINITION. The cycle as the spec defines it once for all instructions (R77 to R89): the Execution
Unit driven by control signals, and the Execution Loop around it. `step` runs the per-instruction net
effects instead, which the spec derives from this; that the two agree is an obligation. -/

namespace Sys2Proof.Machine

/-- What the Execution Unit hands back to the loop (R77): the state and `redirected`, or the data fault
with its byte address (R81). -/
inductive UnitResult where
  | done (s : State) (redirected : Bool)
  | dataOutOfBounds (ea : Word)
  deriving DecidableEq, Repr

/-- The register a write-back goes to (R82). -/
def destReg (cs : ControlSignals) (f : Fields) : RegIdx := if cs.regDst then f.rd else f.rt

/-- Step 3, operand select (R80). -/
def aluResult (cs : ControlSignals) (f : Fields) (s : State) : Word :=
  alu s.draw (s.reg f.rs) (if cs.aluSrc then f.imm else s.reg f.rt) cs.aluOp

/-- Step 5, register write-back of step 3's result `r` (R82). Where the value written is the draw, the draw
is used up. -/
def unitWriteBack (cs : ControlSignals) (f : Fields) (r : Word) (s : State) : UnitResult :=
  if cs.regWrite then
    let t := s.setReg (destReg cs f) r
    .done (if cs.aluOp = .reset then t.takeDraw else t) false
  else .done s false

/-- Step 4, the memory path of V2 on step 3's result `r`, which takes precedence over step 5 (R81). -/
def unitMemoryPath (cs : ControlSignals) (f : Fields) (r : Word) (s : State) : UnitResult :=
  if s.config.variant = .v2 ∧ cs.memtoReg then
    match s.memRead (s.base + r) with
    | some w => .done (s.setReg f.rt w) false
    | none => .dataOutOfBounds (s.base + r)
  else unitWriteBack cs f r s

/-- The Execution Unit on the current instruction, whose address is still in `pc`: step 1, jump (R78);
step 2, branch (R79); then step 3, whose result steps 4 and 5 take or, with the signals of an unrecognized
opcode, discard (R100). -/
def executionUnit (cs : ControlSignals) (f : Fields) (s : State) : UnitResult :=
  if s.config.variant = .v1 ∧ cs.jump then .done (s.setPc (s.reg f.rs)) true
  else if cs.branch ∧ alu s.draw (s.reg f.rs) (s.reg f.rt) cs.aluOp ≠ 0 then
    .done (s.setPc (s.pc + 4 + (f.imm <<< 2))) true
  else unitMemoryPath cs f (aluResult cs f s) s

/-- The loop's part after the Execution Unit (R86, R87), for an instruction at address `a`. -/
def advanceLoop (cs : ControlSignals) (f : Fields) (a : Word) (redirected : Bool) (t : State) : State :=
  let u := if redirected then t else t.setPc (a + 4)
  if u.config.variant = .v1 ∧ cs.jump ∧ f.opcode = 0x02#6 then
    u.setPc ((jumpTop u.config.jTopSource a u.pc &&& 0xF0000000#32) ||| (f.imm <<< 2))
  else u

/-- Executes a fetched word (R85 to R87). -/
def executeWord (w : Word) (s : State) : State :=
  let f := decodeFields w
  let cs := controlSignals s.config.variant f.opcode f.funct
  if f.opcode = 0x3F#6 then s.endRun .halted
  else
    match executionUnit cs f s with
    | .done t redirected => advanceLoop cs f s.pc redirected t
    | .dataOutOfBounds _ => s.endRun .faultDataOob

/-- One cycle of a running block (R89). -/
def datapathCycle (s : State) : State :=
  match s.fetch with
  | none => s.endRun .outOfBounds
  | some w => executeWord w s

end Sys2Proof.Machine
end

