-- ==== Sys2Proof/Machine/Trace.lean ====
section
/-! DEFINITION. The observations of a cycle and of a run (R33, R102, R113, R114). They are reporting only:
no step reads them. -/

namespace Sys2Proof.Machine

/-- The branch decision with its operands (R113). -/
structure BranchReport where
  aluResult : Word
  rsValue : Word
  rtValue : Word
  imm : Word
  deriving DecidableEq, Repr

/-- The diagnostic record of one executed cycle (R113). -/
structure Diagnostic where
  /-- when a branch was evaluated -/
  branch : Option BranchReport
  /-- when a register was written: its index and new value -/
  written : Option (RegIdx × Word)
  /-- the post-cycle program counter -/
  pcAfter : Word
  deriving DecidableEq, Repr

/-- The branch decision of an instruction. -/
def branchReport (i : Instr) (s : State) : Option BranchReport :=
  match i with
  | .bne rs rt imm16 =>
    some { aluResult := alu s.draw (s.reg rs) (s.reg rt) .sub, rsValue := s.reg rs, rtValue := s.reg rt,
           imm := sext32 imm16 }
  | .add _ _ _ _ => none
  | .sub _ _ _ _ => none
  | .rtypeOther _ _ _ _ _ => none
  | .addi _ _ _ => none
  | .j _ _ _ => none
  | .lw _ _ _ => none
  | .hlt _ => none
  | .unrecognized _ _ => none

/-- The register an instruction writes in this state, with its new value (R21). -/
def writeReport (i : Instr) (s : State) : Option (RegIdx × Word) :=
  match i with
  | .add rs rt rd _ => some (rd, alu s.draw (s.reg rs) (s.reg rt) .add)
  | .sub rs rt rd _ => some (rd, alu s.draw (s.reg rs) (s.reg rt) .sub)
  | .rtypeOther rs rt rd _ _ => some (rd, alu s.draw (s.reg rs) (s.reg rt) .reset)
  | .addi rs rt imm16 => some (rt, alu s.draw (s.reg rs) (sext32 imm16) .add)
  | .lw rs rt imm16 =>
    if s.config.variant = .v2 then (s.memRead (lwAddress rs imm16 s)).map (fun w => (rt, w)) else none
  | .bne _ _ _ => none
  | .j _ _ _ => none
  | .hlt _ => none
  | .unrecognized _ _ => none

/-- A cycle is reported when it runs the Execution Unit and is no J cycle of V1 (R113, D20; log entry 9). -/
def isReported (v : Variant) (i : Instr) : Bool :=
  match i with
  | .hlt _ => false
  | .j _ _ _ => v != .v1
  | .add _ _ _ _ => true
  | .sub _ _ _ _ => true
  | .rtypeOther _ _ _ _ _ => true
  | .addi _ _ _ => true
  | .bne _ _ _ => true
  | .lw _ _ _ => true
  | .unrecognized _ _ => true

/-- The diagnostic record of the cycle that starts in `s` (R113). -/
def diagnostic (s : State) : Option Diagnostic :=
  match s.status, s.fetch with
  | .running, some w =>
    let i := decode s.config.variant w
    match isReported s.config.variant i, step s with
    | true, .next t => some { branch := branchReport i s, written := writeReport i s, pcAfter := t.pc }
    | _, _ => none
  | _, _ => none

/-- The byte address with which an instruction raises `DataOutOfBounds`, if it does (R38, R96). -/
def raisesDataOutOfBounds (i : Instr) (s : State) : Option Word :=
  match i with
  | .lw rs _ imm16 =>
    if s.config.variant = .v2 ∧ (s.memRead (lwAddress rs imm16 s)).isNone then some (lwAddress rs imm16 s) else none
  | .add _ _ _ _ => none
  | .sub _ _ _ _ => none
  | .rtypeOther _ _ _ _ _ => none
  | .addi _ _ _ => none
  | .bne _ _ _ => none
  | .j _ _ _ => none
  | .hlt _ => none
  | .unrecognized _ _ => none

/-- The faulting byte address of a cycle that ends in FAULT_DATA_OOB, for observation only (R102). -/
def dataFaultAddress (s : State) : Option Word :=
  match s.status, s.fetch with
  | .running, some w => raisesDataOutOfBounds (decode s.config.variant w) s
  | _, _ => none

/-- The termination report: the full register file once the run has ended (R114, R129). -/
def finalReport (s : State) : Option (Vector Word 32) :=
  match s.status with
  | .running => none
  | .halted => some s.regs
  | .outOfBounds => some s.regs
  | .faultDataOob => some s.regs

end Sys2Proof.Machine
end

