-- ==== Sys2Proof/Safety.lean ====
section
/-! DEFINITION. The terms claims are stated in: invariants, frames, safe runs, and the relations between
states that the whole-machine rules speak of. -/

namespace Sys2Proof.Machine

/-! ### Runs -/

/-- `t` is the state after some number of steps from `s`. -/
def Reaches (s t : State) : Prop := ∃ k, Host.Core.run Sys2Proof.core k s = .next t

/-- The run has ended (R129). -/
abbrev State.Ended (s : State) : Prop := s.status ≠ .running

/-- A run from `s` never ends in FAULT_DATA_OOB, the one end from which no claim of correct behaviour
may be drawn (R102, R129). -/
def Safe (s : State) : Prop := ∀ t, Reaches s t → t.status ≠ .faultDataOob

/-! ### The invariant -/

/-- The configuration is in range (R7), `pc` is a multiple of 4 (R25), and memory is in its canonical
form and lies within its `N` words (R30, R45). -/
abbrev State.Inv (s : State) : Prop :=
  s.config.Legal ∧ s.pc.toNat % 4 = 0 ∧ s.mem.wf ∧ s.mem.Within s.config.memWords

/-! ### Frames -/

/-- Nothing changes but registers, `pc` and the count of draws. -/
structure KeepsRest (s t : State) : Prop where
  config : t.config = s.config
  status : t.status = s.status
  base : t.base = s.base
  bytes : ∀ a, t.mem.readByte a = s.mem.readByte a
  mem : t.mem = s.mem

/-- Every register is unchanged. -/
abbrev KeepsRegs (s t : State) : Prop := ∀ q, t.reg q = s.reg q

/-- Register `r` holds `v`, and every other register is unchanged. -/
abbrev WritesReg (r : RegIdx) (v : Word) (s t : State) : Prop :=
  t.reg r = v ∧ ∀ q, q ≠ r → t.reg q = s.reg q

/-- One register is written and `pc` advances by 4; no draw is used and all else is unchanged. -/
structure WritesAndAdvances (r : RegIdx) (v : Word) (s t : State) : Prop where
  written : WritesReg r v s t
  pc : t.pc = s.pc + 4
  draws : t.draws = s.draws
  rest : KeepsRest s t

/-- Only `pc` changes, to `target`. -/
structure OnlySetsPc (target : Word) (s t : State) : Prop where
  regs : KeepsRegs s t
  pc : t.pc = target
  draws : t.draws = s.draws
  rest : KeepsRest s t

/-- Only `status` changes, to `st`: what a terminal event does. -/
structure OnlySetsStatus (st : RunStatus) (s t : State) : Prop where
  status : t.status = st
  regs : KeepsRegs s t
  pc : t.pc = s.pc
  draws : t.draws = s.draws
  config : t.config = s.config
  base : t.base = s.base
  bytes : ∀ a, t.mem.readByte a = s.mem.readByte a
  mem : t.mem = s.mem

/-! ### Which registers an instruction uses (R21) -/

/-- The registers an instruction reads. An unrecognized opcode reads `x[rs]` and `x[rt]`, named by the same
bits of its word as in every format (R55), and their values are unused. -/
def readsRegs : Instr → List RegIdx
  | .add rs rt _ _ => [rs, rt]
  | .sub rs rt _ _ => [rs, rt]
  | .rtypeOther rs rt _ _ _ => [rs, rt]
  | .addi rs _ _ => [rs]
  | .bne rs rt _ => [rs, rt]
  | .j rs _ _ => [rs]
  | .lw rs _ _ => [rs]
  | .hlt _ => []
  | .unrecognized _ g => [regOfBits (g.extractLsb' 21 5), regOfBits (g.extractLsb' 16 5)]

/-- The register an instruction writes, if any. -/
def writesReg : Instr → Option RegIdx
  | .add _ _ rd _ => some rd
  | .sub _ _ rd _ => some rd
  | .rtypeOther _ _ rd _ _ => some rd
  | .addi _ rt _ => some rt
  | .bne _ _ _ => none
  | .j _ _ _ => none
  | .lw _ rt _ => some rt
  | .hlt _ => none
  | .unrecognized _ _ => none

/-! ### Changes of one part of the state, to say what does not depend on it -/

/-- Applies a map to the next state of an outcome. -/
def mapNext (f : State → State) : StepOutcome → StepOutcome
  | .next t => .next (f t)
  | .fault r => .fault r
  | .refused r => .refused r

/-- The state with another base word. -/
def State.withBase (b : Word) (s : State) : State := { s with base := b }

/-- The state with another count of draws. -/
def State.withDraws (n : Nat) (s : State) : State := { s with draws := n }

/-- The state of a block of the other variant. -/
def State.withVariant (v : Variant) (s : State) : State := { s with config := { s.config with variant := v } }

/-- The state under another reading of the J rule. -/
def State.withJTopSource (j : JTopSource) (s : State) : State :=
  { s with config := { s.config with jTopSource := j } }

/-- The instruction with its register fields renamed. -/
def renameInstr (π : Equiv.Perm RegIdx) : Instr → Instr
  | .add rs rt rd g => .add (π rs) (π rt) (π rd) g
  | .sub rs rt rd g => .sub (π rs) (π rt) (π rd) g
  | .rtypeOther rs rt rd g f => .rtypeOther (π rs) (π rt) (π rd) g f
  | .addi rs rt imm => .addi (π rs) (π rt) imm
  | .bne rs rt imm => .bne (π rs) (π rt) imm
  | .j rs g imm => .j (π rs) g imm
  | .lw rs rt imm => .lw (π rs) (π rt) imm
  | .hlt g => .hlt g
  | .unrecognized op g => .unrecognized op g

/-- The state with its registers renamed: what was in `x[r]` is in `x[π r]`. -/
def State.rename (π : Equiv.Perm RegIdx) (s : State) : State :=
  { s with regs := Vector.ofFn (fun r => s.reg (π.symm r)) }

/-- Two states that hold the same words in memory, laid out in byte orders that may differ, and agree in
everything else. -/
structure SameWords (s t : State) : Prop where
  variant : s.config.variant = t.config.variant
  memWords : s.config.memWords = t.config.memWords
  jTopSource : s.config.jTopSource = t.config.jTopSource
  regs : s.regs = t.regs
  pc : s.pc = t.pc
  status : s.status = t.status
  base : s.base = t.base
  draws : s.draws = t.draws
  words : ∀ k, s.word k = t.word k

end Sys2Proof.Machine
end

