-- ==== Sys2Proof/Certificates/Slice0/Obligations.lean ====
section
/-! DEFINITION. The statements for the provers. Each docstring names the rules of spec/ it formalises. -/

open Sys2Proof Sys2Proof.Machine

/-! ### Encoding and decoding -/

/-- Words written out from the formats of R56 decode to the instructions they stand for, one or more of
every family; the words are those of 95_test_vectors.md. -/
def Obligations.SpecWordsDecode : Prop :=
  (∀ v, decode v 0x00411020 = .add 2 1 2 0) ∧
  (∀ v, decode v 0x004327E0 = .add 2 3 4 31) ∧
  (∀ v, decode v 0x00221822 = .sub 1 2 3 0) ∧
  (∀ v, decode v 0x00221824 = .rtypeOther 1 2 3 0 0x24) ∧
  (∀ v, decode v 0x2022FFFF = .addi 1 2 0xFFFF) ∧
  (∀ v, decode v 0x1423FFFD = .bne 1 3 0xFFFD) ∧
  decode .v1 0x08E00003 = .j 7 0 3 ∧
  decode .v2 0x8C25FFFC = .lw 1 5 0xFFFC ∧
  (∀ v, decode v 0xFC221820 = .hlt 0x0221820) ∧
  (∀ v, decode v 0xAC220004 = .unrecognized 0x2B 0x0220004) ∧
  decode .v2 0x08000004 = .unrecognized 0x02 0x0000004 ∧
  decode .v1 0x8C010008 = .unrecognized 0x23 0x0010008

/-- R55, the bit positions of the fields, said of the word as a number. -/
def Obligations.FieldsAreBitSlices : Prop :=
  ∀ w : Word,
    (opcodeOf w).toNat = w.toNat / 2 ^ 26 ∧
    (rsOf w).val = w.toNat / 2 ^ 21 % 32 ∧
    (rtOf w).val = w.toNat / 2 ^ 16 % 32 ∧
    (rdOf w).val = w.toNat / 2 ^ 11 % 32 ∧
    (functOf w).toNat = w.toNat % 64 ∧
    (imm16Of w).toNat = w.toNat % 2 ^ 16

/-- Every well-formed instruction, with every operand and every ignored bit at every value, is what its
own word decodes to. -/
def Obligations.DecodeOfEncodeIsTheInstruction : Prop :=
  ∀ (v : Variant) (i : Instr), i.wf v = true → decode v (encode i) = i

/-- No bit of a word is dropped: the word is rebuilt from what it decodes to, in both variants. -/
def Obligations.EncodeOfDecodeIsTheWord : Prop :=
  ∀ (v : Variant) (w : Word), encode (decode v w) = w

/-- R71: decode is total and gives an instruction the variant has, and only `opcode` and, for opcode
0x00, `funct` select the row. -/
def Obligations.OpcodeAndFunctSelectTheRow : Prop :=
  (∀ (v : Variant) (w : Word), (decode v w).wf v = true) ∧
  ∀ (v : Variant) (w w' : Word), opcodeOf w = opcodeOf w' → (opcodeOf w = 0x00#6 → functOf w = functOf w') →
    (decode v w).mnemonic = (decode v w').mnemonic

/-- The decoder takes the first row of spec/opcode_table.json, in decode_order, that the variant has and
the word matches (R70). -/
def Obligations.DecoderFollowsTheOpcodeTable : Prop :=
  ∀ (v : Variant) (w : Word),
    (opcodeTable.find? (fun r => r.takes v w)).map TableRow.mnemonic = some (decode v w).mnemonic

/-- R56 and R72: bits 10:6 of an R-type word, bits 20:16 of a J word, and all but the opcode of a HLT or
unrecognized word never change what the word does. -/
def Obligations.IgnoredBitsChangeNothing : Prop :=
  ∀ (v : Variant) (w w' : Word) (s : State), opcodeOf w = opcodeOf w' →
    (opcodeOf w = 0x00#6 → rsOf w = rsOf w' → rtOf w = rtOf w' → rdOf w = rdOf w' → functOf w = functOf w' →
      exec (decode v w) s = exec (decode v w') s) ∧
    (opcodeOf w = 0x02#6 → v = .v1 → rsOf w = rsOf w' → imm16Of w = imm16Of w' →
      exec (decode v w) s = exec (decode v w') s) ∧
    (opcodeOf w = 0x3F#6 → exec (decode v w) s = exec (decode v w') s) ∧
    (opcodeOf w ∉ recognizedOpcodes v → exec (decode v w) s = exec (decode v w') s)

/-! ### The Control Unit and the ALU -/

/-- R60 to R66: the control table, every row, field by field; a field a row does not name is zero. Two parts
rest on the spec's own decisions (log entry 13): that R-type of another funct writes its register is D7
(90_conflicts.md C2), and that MemRead and MemWrite are 0 is D15. -/
def Obligations.ControlTableRows : Prop :=
  (∀ (v : Variant) (funct : BitVec 6), controlSignals v 0x00#6 funct =
    { regDst := true, aluSrc := false, memtoReg := false, regWrite := true, memRead := false, memWrite := false,
      branch := false, jump := false,
      aluOp := if funct = 0x20#6 then .add else if funct = 0x22#6 then .sub else .reset }) ∧
  (∀ (v : Variant) (funct : BitVec 6), controlSignals v 0x08#6 funct =
    { regDst := false, aluSrc := true, memtoReg := false, regWrite := true, memRead := false, memWrite := false,
      branch := false, jump := false, aluOp := .add }) ∧
  (∀ (v : Variant) (funct : BitVec 6), controlSignals v 0x05#6 funct =
    { regDst := false, aluSrc := false, memtoReg := false, regWrite := false, memRead := false, memWrite := false,
      branch := true, jump := false, aluOp := .sub }) ∧
  (∀ funct : BitVec 6, controlSignals .v1 0x02#6 funct =
    { regDst := false, aluSrc := false, memtoReg := false, regWrite := false, memRead := false, memWrite := false,
      branch := false, jump := true, aluOp := .reset }) ∧
  (∀ funct : BitVec 6, controlSignals .v2 0x23#6 funct =
    { regDst := false, aluSrc := true, memtoReg := true, regWrite := true, memRead := false, memWrite := false,
      branch := false, jump := false, aluOp := .add }) ∧
  (∀ (v : Variant) (opcode funct : BitVec 6), (opcode = 0x3F#6 ∨ opcode ∉ recognizedOpcodes v) →
    controlSignals v opcode funct =
    { regDst := false, aluSrc := false, memtoReg := false, regWrite := false, memRead := false, memWrite := false,
      branch := false, jump := false, aluOp := .reset })

/-- R68: MemRead and MemWrite are 0 in every row, which is the spec's own decision D15 (log entry 13), and no
rule of the Execution Unit or the Execution Loop reads them. -/
def Obligations.DeadSignalsAreInert : Prop :=
  (∀ (v : Variant) (opcode funct : BitVec 6),
    (controlSignals v opcode funct).memRead = false ∧ (controlSignals v opcode funct).memWrite = false) ∧
  ∀ (cs : ControlSignals) (b b' : Bool) (f : Fields) (s : State),
    executionUnit { cs with memRead := b, memWrite := b' } f s = executionUnit cs f s ∧
    ∀ (a : Word) (redirected : Bool),
      advanceLoop { cs with memRead := b, memWrite := b' } f a redirected s = advanceLoop cs f a redirected s

/-- R67: the decoder never produces the dead tags SLT, BNE and HLT: a row's tag is ADD, SUB or the reset
tag. -/
def Obligations.DecoderNeverProducesDeadTags : Prop :=
  ∀ (v : Variant) (opcode funct : BitVec 6),
    (controlSignals v opcode funct).aluOp ∈ [AluTag.add, AluTag.sub, AluTag.reset]

/-- R90: sums and differences modulo 2^32, said of the operands as numbers; and R91: the dead tags give 0, and
the reset tag gives the cycle's draw, which is the spec's own decision D7 (log entry 13). -/
def Obligations.AluAddsAndSubtractsModulo : Prop :=
  ∀ draw a b : Word,
    (alu draw a b .add).toNat = (a.toNat + b.toNat) % 2 ^ 32 ∧
    ((alu draw a b .sub).toNat : Int) = ((a.toNat : Int) - (b.toNat : Int)) % 2 ^ 32 ∧
    alu draw a b .slt = 0 ∧ alu draw a b .bne = 0 ∧ alu draw a b .hlt = 0 ∧
    alu draw a b .reset = draw

/-- R11, R57: sign extension keeps the signed value, and is the field OR'd with 0xFFFF0000 when bit 15 is
set and the raw value otherwise. -/
def Obligations.SignExtensionKeepsTheSignedValue : Prop :=
  ∀ v : BitVec 16,
    (sext32 v).toInt = v.toInt ∧
    (0x8000 ≤ v.toNat → sext32 v = zext32 v ||| 0xFFFF0000) ∧
    (v.toNat < 0x8000 → (sext32 v).toNat = v.toNat)

/-! ### The instructions -/

/-- R92, ADD: its encoding and control row, and its effect: `x[rd]` alone is written, `pc` advances by 4. -/
def Obligations.AddWritesTheSum : Prop :=
  (∀ (v : Variant) (w : Word), w &&& 0xFC00003F = 0x00000020 →
    decode v w = .add (rsOf w) (rtOf w) (rdOf w) (bits10to6 w)) ∧
  (∀ v, controlSignals v 0x00#6 0x20#6 =
    { ControlSignals.cleared with regDst := true, regWrite := true, aluOp := .add }) ∧
  ∀ (rs rt rd : RegIdx) (g : BitVec 5) (s : State),
    ∃ t, exec (.add rs rt rd g) s = .next t ∧ WritesAndAdvances rd (s.reg rs + s.reg rt) s t

/-- R93, SUB: its encoding and control row, and its effect. -/
def Obligations.SubWritesTheDifference : Prop :=
  (∀ (v : Variant) (w : Word), w &&& 0xFC00003F = 0x00000022 →
    decode v w = .sub (rsOf w) (rtOf w) (rdOf w) (bits10to6 w)) ∧
  (∀ v, controlSignals v 0x00#6 0x22#6 =
    { ControlSignals.cleared with regDst := true, regWrite := true, aluOp := .sub }) ∧
  ∀ (rs rt rd : RegIdx) (g : BitVec 5) (s : State),
    ∃ t, exec (.sub rs rt rd g) s = .next t ∧ WritesAndAdvances rd (s.reg rs - s.reg rt) s t

/-- R94, ADDI: its encoding and control row, and its effect. -/
def Obligations.AddiAddsTheImmediate : Prop :=
  (∀ (v : Variant) (w : Word), w &&& 0xFC000000 = 0x20000000 →
    decode v w = .addi (rsOf w) (rtOf w) (imm16Of w)) ∧
  (∀ v funct, controlSignals v 0x08#6 funct =
    { ControlSignals.cleared with aluSrc := true, regWrite := true, aluOp := .add }) ∧
  ∀ (rs rt : RegIdx) (imm16 : BitVec 16) (s : State),
    ∃ t, exec (.addi rs rt imm16) s = .next t ∧ WritesAndAdvances rt (s.reg rs + sext32 imm16) s t

/-- R95, R-type of another funct: its encoding and control row, and its effect: `x[rd]` holds some 32-bit
value, no other register changes, `pc` advances by 4. Nothing is said of the value or of the model's count
of draws. That the row sets RegDst and RegWrite for these functs, and that some value is written, is the
spec's own decision D7 (90_conflicts.md C2; log entry 13). -/
def Obligations.OtherFunctWritesSomeValue : Prop :=
  (∀ (v : Variant) (w : Word), w &&& 0xFC000000 = 0x00000000 → functOf w ≠ 0x20#6 → functOf w ≠ 0x22#6 →
    decode v w = .rtypeOther (rsOf w) (rtOf w) (rdOf w) (bits10to6 w) (functOf w)) ∧
  (∀ v funct, funct ≠ 0x20#6 → funct ≠ 0x22#6 → controlSignals v 0x00#6 funct =
    { ControlSignals.cleared with regDst := true, regWrite := true, aluOp := .reset }) ∧
  ∀ (rs rt rd : RegIdx) (g : BitVec 5) (funct : BitVec 6) (s : State),
    ∃ value t, exec (.rtypeOther rs rt rd g funct) s = .next t ∧ WritesReg rd value s t ∧
      t.pc = s.pc + 4 ∧ KeepsRest s t

/-- The free value (R8). The model's choice, log entry 1: the value R-type of another funct writes is the
draw numbered `s.draws`, and the count then advances, so that the next draw is fresh. Every other
instruction leaves the count alone and does the same whatever it is. -/
def Obligations.OnlyOtherFunctReadsTheDraw : Prop :=
  (∀ (rs rt rd : RegIdx) (g : BitVec 5) (funct : BitVec 6) (s : State),
    ∃ t, exec (.rtypeOther rs rt rd g funct) s = .next t ∧
      t.reg rd = Config.unknownFunctDraw s.draws ∧ t.draws = s.draws + 1) ∧
  ∀ (i : Instr) (n : Nat) (s : State), i.mnemonic ≠ .RTYPE_OTHER →
    exec i (s.withDraws n) = mapNext (State.withDraws n) (exec i s)

/-- R96, LW of V2: its encoding and control row, and its effect: the whole word that holds the byte address
`base + x[rs] + sext_32(imm16)` is loaded; an index at or above `N` ends the run in FAULT_DATA_OOB and
changes nothing else. Three parts are the spec's own decisions (log entries 12 and 13): the fault is D8, the
sum's wrap modulo 2^32 is D23, and dropping bits 1:0 of the address is D11. -/
def Obligations.LwLoadsTheAddressedWord : Prop :=
  (∀ w : Word, w &&& 0xFC000000 = 0x8C000000 → decode .v2 w = .lw (rsOf w) (rtOf w) (imm16Of w)) ∧
  (∀ funct, controlSignals .v2 0x23#6 funct =
    { ControlSignals.cleared with aluSrc := true, memtoReg := true, regWrite := true, aluOp := .add }) ∧
  ∀ (rs rt : RegIdx) (imm16 : BitVec 16) (s : State), s.config.variant = .v2 →
    ((s.base + (s.reg rs + sext32 imm16)).toNat / 4 < s.config.memWords →
      ∃ t, exec (.lw rs rt imm16) s = .next t ∧
        WritesAndAdvances rt (s.word ((s.base + (s.reg rs + sext32 imm16)).toNat / 4)) s t) ∧
    (s.config.memWords ≤ (s.base + (s.reg rs + sext32 imm16)).toNat / 4 →
      ∃ t, exec (.lw rs rt imm16) s = .next t ∧ OnlySetsStatus .faultDataOob s t)

/-- R43 and R42, the spec's own decisions D11 and D12 (log entry 13): bits 1:0 of a load address and of `pc`
are dropped. Two LWs into the same register whose addresses lie in the same word do the same, and so do two
fetches. -/
def Obligations.LowAddressBitsAreDropped : Prop :=
  (∀ (rs rs' rt : RegIdx) (imm16 imm16' : BitVec 16) (s : State),
    (s.base + (s.reg rs + sext32 imm16)).toNat / 4 = (s.base + (s.reg rs' + sext32 imm16')).toNat / 4 →
    exec (.lw rs rt imm16) s = exec (.lw rs' rt imm16') s) ∧
  ∀ (p : Word) (s : State), p.toNat / 4 = s.pc.toNat / 4 → (s.setPc p).fetch = s.fetch

/-- R97, BNE: its encoding and control row, and its effect: only `pc` changes; the branch is taken exactly
when the registers differ, to a target relative to the next instruction. -/
def Obligations.BneBranchesWhenRegistersDiffer : Prop :=
  (∀ (v : Variant) (w : Word), w &&& 0xFC000000 = 0x14000000 →
    decode v w = .bne (rsOf w) (rtOf w) (imm16Of w)) ∧
  (∀ v funct, controlSignals v 0x05#6 funct = { ControlSignals.cleared with branch := true, aluOp := .sub }) ∧
  ∀ (rs rt : RegIdx) (imm16 : BitVec 16) (s : State),
    ∃ t, exec (.bne rs rt imm16) s = .next t ∧
      OnlySetsPc (if s.reg rs ≠ s.reg rt then s.pc + 4 + (sext32 imm16 <<< 2) else s.pc + 4) s t

/-- R98, J of V1: its encoding and control row, and its effect under each reading of JTopSource: only `pc`
changes. -/
def Obligations.JumpCombinesTopBitsAndImmediate : Prop :=
  (∀ w : Word, w &&& 0xFC000000 = 0x08000000 → decode .v1 w = .j (rsOf w) (bits20to16 w) (imm16Of w)) ∧
  (∀ funct, controlSignals .v1 0x02#6 funct = { ControlSignals.cleared with jump := true }) ∧
  ∀ (rs : RegIdx) (g : BitVec 5) (imm16 : BitVec 16) (s : State), s.config.variant = .v1 →
    ∃ t, exec (.j rs g imm16) s = .next t ∧
      (s.config.jTopSource = .regRs →
        OnlySetsPc ((s.reg rs &&& 0xF0000000#32) ||| (sext32 imm16 <<< 2)) s t) ∧
      (s.config.jTopSource = .pcOfJ →
        OnlySetsPc ((s.pc &&& 0xF0000000#32) ||| (sext32 imm16 <<< 2)) s t) ∧
      (s.config.jTopSource = .pcOfJPlus4 →
        OnlySetsPc (((s.pc + 4) &&& 0xF0000000#32) ||| (sext32 imm16 <<< 2)) s t)

/-- R98, corner cases of the target: it is a multiple of 4; with a field below 0x8000 its low 28 bits are
four times the field, and its top four are those of the source; with a field from 0x8000 on it is at least
0xFFFE0000. -/
def Obligations.JumpTargetRange : Prop :=
  ∀ (top : Word) (imm16 : BitVec 16),
    (directTarget top (sext32 imm16)).toNat % 4 = 0 ∧
    (imm16.toNat < 0x8000 →
      (directTarget top (sext32 imm16)).toNat = top.toNat / 2 ^ 28 * 2 ^ 28 + imm16.toNat * 4) ∧
    (0x8000 ≤ imm16.toNat → 0xFFFE0000 ≤ (directTarget top (sext32 imm16)).toNat)

/-- R99, HLT: its encoding and control row, and its effect: `status` becomes HALTED and nothing else
changes, `pc` included. -/
def Obligations.HltOnlyHalts : Prop :=
  (∀ (v : Variant) (w : Word), w &&& 0xFC000000 = 0xFC000000 → decode v w = .hlt (bits25to0 w)) ∧
  (∀ v funct, controlSignals v 0x3F#6 funct = ControlSignals.cleared) ∧
  ∀ (g : BitVec 26) (s : State), ∃ t, exec (.hlt g) s = .next t ∧ OnlySetsStatus .halted s t

/-- R100, an unrecognized opcode: which opcodes they are, 59 in each variant, the control row, and the
effect: `pc` advances by 4 and nothing else changes. -/
def Obligations.UnrecognizedOpcodeIsNoOp : Prop :=
  (∀ (v : Variant) (w : Word),
    (opcodeOf w ≠ 0x00#6 ∧ opcodeOf w ≠ 0x05#6 ∧ opcodeOf w ≠ 0x08#6 ∧ opcodeOf w ≠ 0x3F#6 ∧
      ¬ (opcodeOf w = 0x02#6 ∧ v = .v1) ∧ ¬ (opcodeOf w = 0x23#6 ∧ v = .v2)) →
    decode v w = .unrecognized (opcodeOf w) (bits25to0 w) ∧
      ∀ funct, controlSignals v (opcodeOf w) funct = ControlSignals.cleared) ∧
  (∀ v : Variant, ((List.range 64).filter
    (fun n => !(recognizedOpcodes v).contains (BitVec.ofNat 6 n))).length = 59) ∧
  ∀ (op : BitVec 6) (g : BitVec 26) (s : State),
    ∃ t, exec (.unrecognized op g) s = .next t ∧ OnlySetsPc (s.pc + 4) s t

/-- R69: in the other variant the opcodes of J and LW are no-ops: the cycle that fetches one only advances
`pc`. -/
def Obligations.OtherVariantsOpcodeIsNoOp : Prop :=
  ∀ s : State, s.status = .running → s.pc.toNat / 4 < s.config.memWords →
    ((s.config.variant = .v2 ∧ opcodeOf (s.word (s.pc.toNat / 4)) = 0x02#6) ∨
      (s.config.variant = .v1 ∧ opcodeOf (s.word (s.pc.toNat / 4)) = 0x23#6)) →
    ∃ t, step s = .next t ∧ OnlySetsPc (s.pc + 4) s t

/-- The model's choice, log entry 8: J as an instruction of a V2 block, and LW as one of a V1 block, which
no word decodes to there, are the no-op of R69. -/
def Obligations.IllFormedJAndLwAreNoOps : Prop :=
  (∀ (rs : RegIdx) (g : BitVec 5) (imm16 : BitVec 16) (s : State), s.config.variant = .v2 →
    ∃ t, exec (.j rs g imm16) s = .next t ∧ OnlySetsPc (s.pc + 4) s t) ∧
  ∀ (rs rt : RegIdx) (imm16 : BitVec 16) (s : State), s.config.variant = .v1 →
    ∃ t, exec (.lw rs rt imm16) s = .next t ∧ OnlySetsPc (s.pc + 4) s t

/-! ### The cycle -/

/-- R84 to R86: a running block whose `pc` is inside memory executes the instruction that the word at `pc`
decodes to, and adds nothing around it. -/
def Obligations.StepRunsTheDecodedInstruction : Prop :=
  ∀ (s : State) (i : Instr), s.status = .running → s.pc.toNat / 4 < s.config.memWords →
    decode s.config.variant (s.word (s.pc.toNat / 4)) = i → i.wf s.config.variant = true →
    step s = exec i s

/-- R103: a running block whose `pc` is outside memory executes nothing and ends in OUT_OF_BOUNDS, with
`pc` at the out-of-bounds address. -/
def Obligations.OutOfBoundsFetchEndsTheRun : Prop :=
  ∀ s : State, s.status = .running → s.config.memWords ≤ s.pc.toNat / 4 →
    ∃ t, step s = .next t ∧ OnlySetsStatus .outOfBounds s t

/-- R102, the spec's own decision D8 (log entries 12 and 13): an LW of V2 whose word index is at or above `N`
ends the run in FAULT_DATA_OOB: the cycle changes nothing else, and `pc` keeps the address of the LW. -/
def Obligations.DataOutOfBoundsEndsTheRun : Prop :=
  ∀ (s : State) (rs rt : RegIdx) (imm16 : BitVec 16),
    s.status = .running → s.config.variant = .v2 → s.pc.toNat / 4 < s.config.memWords →
    decode .v2 (s.word (s.pc.toNat / 4)) = .lw rs rt imm16 →
    s.config.memWords ≤ (s.base + (s.reg rs + sext32 imm16)).toNat / 4 →
    ∃ t, step s = .next t ∧ OnlySetsStatus .faultDataOob s t

/-- R107, the order of the checks: the status a cycle of a running block leaves, and when: the fetch bound
comes first, then the halt, then LW's data bound, and otherwise the block keeps running. That LW's data bound
ends the run in FAULT_DATA_OOB is the spec's own decision D8 (log entries 12 and 13). -/
def Obligations.StatusAfterEachCycle : Prop :=
  ∀ s t : State, s.status = .running → step s = .next t →
    (t.status = .outOfBounds ↔ s.config.memWords ≤ s.pc.toNat / 4) ∧
    (t.status = .halted ↔
      s.pc.toNat / 4 < s.config.memWords ∧ opcodeOf (s.word (s.pc.toNat / 4)) = 0x3F#6) ∧
    (t.status = .faultDataOob ↔
      s.pc.toNat / 4 < s.config.memWords ∧ s.config.variant = .v2 ∧
        opcodeOf (s.word (s.pc.toNat / 4)) = 0x23#6 ∧
        s.config.memWords ≤ (s.base + (s.reg (rsOf (s.word (s.pc.toNat / 4))) +
          sext32 (imm16Of (s.word (s.pc.toNat / 4))))).toNat / 4)

/-- R108: every terminal event is precise: the cycle that ends the run changes `status` and nothing else,
so `pc` names what ended it. -/
def Obligations.TerminalEventsArePrecise : Prop :=
  ∀ s t : State, s.status = .running → step s = .next t → t.status ≠ .running →
    OnlySetsStatus t.status s t

/-- R24: what a cycle does to `pc`: one of `pc + 4`, the BNE target and the J target while the block keeps
running, and nothing when the cycle ends the run. -/
def Obligations.PcAfterEachCycle : Prop :=
  ∀ s t : State, s.status = .running → step s = .next t →
    (t.status ≠ .running → t.pc = s.pc) ∧
    (t.status = .running →
      t.pc = match decode s.config.variant (s.word (s.pc.toNat / 4)) with
        | .bne rs rt imm16 => if s.reg rs ≠ s.reg rt then s.pc + 4 + (sext32 imm16 <<< 2) else s.pc + 4
        | .j rs _ imm16 =>
          ((match s.config.jTopSource with
            | .regRs => s.reg rs
            | .pcOfJ => s.pc
            | .pcOfJPlus4 => s.pc + 4) &&& 0xF0000000#32) ||| (sext32 imm16 <<< 2)
        | _ => s.pc + 4)

/-- R89: the cycle as the spec defines it once, with the control signals, the Execution Unit's steps and
the Execution Loop, is the step of this model. The fault of its step 4 is the spec's own decision D8 (log
entry 13). -/
def Obligations.DatapathCycleIsTheStep : Prop :=
  ∀ s : State, s.status = .running → step s = .next (datapathCycle s)

/-- R78 and R87, the two jump rules one after the other: for a J of V1 the Execution Unit sets `pc` to
`x[rs]` and reports it redirected, and the loop's direct rule then sets the bits from the `pc` it finds. -/
def Obligations.JumpIsTwoRules : Prop :=
  ∀ (f : Fields) (s : State), s.config.variant = .v1 → f.opcode = 0x02#6 →
    executionUnit (controlSignals .v1 f.opcode f.funct) f s = .done (s.setPc (s.reg f.rs)) true ∧
    advanceLoop (controlSignals .v1 f.opcode f.funct) f s.pc true (s.setPc (s.reg f.rs)) =
      s.setPc ((jumpTop s.config.jTopSource s.pc (s.reg f.rs) &&& 0xF0000000#32) ||| (f.imm <<< 2))

/-- The model's reading of R16 and R26, log entry 7: at a terminal status any number of steps leaves the
state as it is. -/
def Obligations.TerminalStateNeverChanges : Prop :=
  ∀ (s : State) (k : Nat), s.Ended → Host.Core.run Sys2Proof.core k s = .next s

/-- No word traps (R71, R72) and no step stops with a fault or a refusal: from every state the machine answers
a next state. Two parts are the model's reading: a terminal event, FAULT_DATA_OOB among them, is a next state
(log entry 12), and at a terminal status, where R16 and R26 take no step, the state itself is answered (log
entry 7). -/
def Obligations.EveryStepAnswersANextState : Prop :=
  ∀ s : State, ∃ t, step s = .next t

/-! ### Registers -/

/-- R20: register 0 is an ordinary register: a write to it succeeds, and it keeps the value through every
step that does not write it. -/
def Obligations.RegisterZeroIsOrdinary : Prop :=
  (∀ (rs : RegIdx) (imm16 : BitVec 16) (s : State),
    ∃ t, exec (.addi rs 0 imm16) s = .next t ∧ t.reg 0 = s.reg rs + sext32 imm16) ∧
  ∀ s t : State, step s = .next t →
    writesReg (decode s.config.variant (s.word (s.pc.toNat / 4))) ≠ some 0 → t.reg 0 = s.reg 0

/-- R19, R20: no register is special. Renaming the registers of the instruction and of the state renames
those of the result and changes nothing else. -/
def Obligations.RenamingRegistersCommutesWithExec : Prop :=
  ∀ (π : Equiv.Perm RegIdx) (i : Instr) (s : State),
    exec (renameInstr π i) (s.rename π) = mapNext (State.rename π) (exec i s)

/-- R21, the register use table: an instruction writes no register but the one the table names, and what it
does depends on no register but those the table says it reads. An unrecognized word reads the registers of its
fields `rs` and `rt`, and what it does depends on neither: their values are unused. -/
def Obligations.RegisterUseTable : Prop :=
  (∀ (i : Instr) (s t : State), exec i s = .next t → ∀ q, writesReg i ≠ some q → t.reg q = s.reg q) ∧
  (∀ (v : Variant) (w : Word), (decode v w).mnemonic = .UNRECOGNIZED →
    readsRegs (decode v w) = [rsOf w, rtOf w]) ∧
  ∀ (i : Instr) (s t : State) (regs : Vector Word 32), s.status = .running →
    i.wf s.config.variant = true → exec i s = .next t →
    (i.mnemonic ≠ .UNRECOGNIZED → ∀ r ∈ readsRegs i, regs[r] = s.reg r) →
    ∃ t', exec i { s with regs := regs } = .next t' ∧
      { t' with regs := t.regs } = t ∧
      (t.status = .running → ∀ r, writesReg i = some r → t'.reg r = t.reg r)

/-- R22: a cycle writes at most one register, and the value written is what the next cycle reads. -/
def Obligations.AtMostOneRegisterPerCycle : Prop :=
  ∀ s t : State, step s = .next t → ∃ (r : RegIdx) (v : Word), t.regs = s.regs.set r v

/-! ### Memory, base word and configuration -/

/-- R53: at every moment of a run, whatever its status, memory holds MEM0. -/
def Obligations.MemoryIsMem0ThroughoutTheRun : Prop :=
  ∀ (config : Config) (lwBase : Word) (regs0 : Vector Word 32) (mem0 : List Word) (t : State),
    Reaches (State.launch config lwBase regs0 mem0) t →
    t.mem = (State.launch config lwBase regs0 mem0).mem ∧
    ∀ (k : Nat) (h : k < mem0.length), t.word k = mem0[k]

/-- R120: the configuration and the base word never change during a run. -/
def Obligations.ConfigurationNeverChanges : Prop :=
  ∀ s t : State, Reaches s t → t.config = s.config ∧ t.base = s.base

/-- R27: no instruction writes the base word, so it holds LW_BASE for the whole run, which is the spec's own
decision D3 (log entry 13); no instruction but LW reads it. In V1, where R27 has no base word, the model's state
still holds one (log entry 4, the model's choice), and nothing reads it. -/
def Obligations.OnlyLwReadsTheBaseWord : Prop :=
  (∀ (i : Instr) (s t : State), exec i s = .next t → t.base = s.base) ∧
  (∀ (config : Config) (lwBase : Word) (regs0 : Vector Word 32) (mem0 : List Word) (t : State),
    Reaches (State.launch config lwBase regs0 mem0) t → t.base = lwBase) ∧
  (∀ (i : Instr) (b : Word) (s : State), i.mnemonic ≠ .LW →
    exec i (s.withBase b) = mapNext (State.withBase b) (exec i s)) ∧
  ∀ (b : Word) (s : State), s.config.variant = .v1 →
    step (s.withBase b) = mapNext (State.withBase b) (step s)

/-- R87: JTopSource is read by J of V1 and by nothing else. -/
def Obligations.OnlyJReadsJTopSource : Prop :=
  (∀ (i : Instr) (j : JTopSource) (s : State), i.mnemonic ≠ .J →
    exec i (s.withJTopSource j) = mapNext (State.withJTopSource j) (exec i s)) ∧
  ∀ (j : JTopSource) (s : State), s.config.variant = .v2 →
    step (s.withJTopSource j) = mapNext (State.withJTopSource j) (step s)

/-- R2, R69: the two variants differ in the opcodes 0x02 and 0x23 alone. -/
def Obligations.VariantsAgreeOutsideJAndLw : Prop :=
  ∀ (v : Variant) (s : State), opcodeOf (s.word (s.pc.toNat / 4)) ≠ 0x02#6 →
    opcodeOf (s.word (s.pc.toNat / 4)) ≠ 0x23#6 →
    step (s.withVariant v) = mapNext (State.withVariant v) (step s)

/-- R40: no program can observe a byte order. Two blocks whose memories hold the same words, each in its own
byte order, and that agree otherwise, stay so in every step. The byte order is the model's, log entry 6. -/
def Obligations.ByteOrderIsUnobservable : Prop :=
  ∀ s t : State, SameWords s t →
    ∃ s' t', step s = .next s' ∧ step t = .next t' ∧ SameWords s' t'

/-- Log entry 6: the same words loaded in the two byte orders give such a pair of blocks. -/
def Obligations.LaunchHoldsTheSameWordsInEitherByteOrder : Prop :=
  ∀ (config : Config) (o : ByteOrder) (lwBase : Word) (regs0 : Vector Word 32) (mem0 : List Word),
    SameWords (State.launch config lwBase regs0 mem0)
      (State.launch { config with loaderByteOrder := o } lwBase regs0 mem0)

/-- Log entry 5: the canonical form of memory is canonical: memories that read the same at every address
are the same data. -/
def Obligations.EqualBytesAreEqualMemories : Prop :=
  ∀ m m' : Memory, Memory.wf m → Memory.wf m' → (∀ a, Memory.readByte m a = Memory.readByte m' a) → m = m'

/-! ### Launch, reset and the invariant -/

/-- R34: the state at the start of a run. -/
def Obligations.LaunchState : Prop :=
  ∀ (config : Config) (lwBase : Word) (regs0 : Vector Word 32) (mem0 : List Word),
    mem0.length = config.memWords →
    (State.launch config lwBase regs0 mem0).pc = 0 ∧
    (State.launch config lwBase regs0 mem0).status = .running ∧
    (∀ r, (State.launch config lwBase regs0 mem0).reg r = regs0[r]) ∧
    (∀ (k : Nat) (h : k < mem0.length), (State.launch config lwBase regs0 mem0).word k = mem0[k]) ∧
    (State.launch config lwBase regs0 mem0).base = lwBase

/-- R117: reset leaves `pc = 0` and `status = RUNNING`, and execution begins with the fetch of `mem[0]`. -/
def Obligations.ResetStartsAtWordZero : Prop :=
  State.reset.pc = 0 ∧ State.reset.status = .running ∧ State.reset.fetch = some (State.reset.word 0)

/-- The invariant holds at reset, whose configuration and memory are the model's (log entries 2 and 5). -/
def Obligations.ResetMeetsTheInvariant : Prop :=
  State.reset.Inv

/-- R25 and R7, with the model's canonical form of memory (log entry 5): the invariant holds at the start of
every run whose memory image fits its memory. -/
def Obligations.LaunchMeetsTheInvariant : Prop :=
  ∀ (config : Config) (lwBase : Word) (regs0 : Vector Word 32) (mem0 : List Word),
    config.Legal → mem0.length ≤ config.memWords → (State.launch config lwBase regs0 mem0).Inv

/-- R25 and R7, with the model's canonical form of memory (log entry 5): from every state in which the
configuration is in range, `pc` is a multiple of 4 and memory is canonical and within its words, so is it
after a step. -/
def Obligations.StepKeepsTheInvariant : Prop :=
  ∀ s t : State, s.Inv → step s = .next t → t.Inv

/-- FAULT_DATA_OOB is LW's alone (R101) and LW is V2's alone (R69): no run of a V1 block ends in it. -/
def Obligations.V1RunsNeverFaultOnData : Prop :=
  ∀ s : State, s.config.variant = .v1 → s.status ≠ .faultDataOob → Safe s

/-! ### Observations and the loader -/

/-- R113, D20 (log entry 9): which cycles give a diagnostic record, and that the record tells the truth
about the cycle: it names a register exactly when the instruction writes one and the cycle ends in no data
fault, and then that register, with its new value. That an LW which faults gives a record is log entry 9, and
that it faults is D8 (log entries 12 and 13). -/
def Obligations.DiagnosticTellsTheCycle : Prop :=
  (∀ s : State, diagnostic s = none ↔
    (s.status ≠ .running ∨ s.config.memWords ≤ s.pc.toNat / 4 ∨
      (decode s.config.variant (s.word (s.pc.toNat / 4))).mnemonic = .HLT ∨
      (decode s.config.variant (s.word (s.pc.toNat / 4))).mnemonic = .J)) ∧
  ∀ (s : State) (d : Diagnostic), diagnostic s = some d →
    ∃ t, step s = .next t ∧ d.pcAfter = t.pc ∧
      d.written.map Prod.fst = (if t.status = .faultDataOob then none
        else writesReg (decode s.config.variant (s.word (s.pc.toNat / 4)))) ∧
      (∀ r v, d.written = some (r, v) → WritesReg r v s t) ∧
      (d.written = none → KeepsRegs s t) ∧
      (∀ rs rt imm16, decode s.config.variant (s.word (s.pc.toNat / 4)) = .bne rs rt imm16 →
        d.branch = some
          { aluResult := s.reg rs - s.reg rt, rsValue := s.reg rs, rtValue := s.reg rt, imm := sext32 imm16 }) ∧
      ((decode s.config.variant (s.word (s.pc.toNat / 4))).mnemonic ≠ .BNE → d.branch = none)

/-- R102: the faulting byte address, that of the LW fetched, is observed in the cycles that end in
FAULT_DATA_OOB, and none in the others. The fault is the spec's own decision D8 (log entries 12 and 13). -/
def Obligations.FaultAddressIsObserved : Prop :=
  ∀ s t : State, s.status = .running → step s = .next t →
    (t.status = .faultDataOob → ∃ (rs rt : RegIdx) (imm16 : BitVec 16),
      decode s.config.variant (s.word (s.pc.toNat / 4)) = .lw rs rt imm16 ∧
      dataFaultAddress s = some (s.base + (s.reg rs + sext32 imm16))) ∧
    (t.status ≠ .faultDataOob → dataFaultAddress s = none)

/-- Log entry 10: the word the loader places is the one the very next step runs. -/
def Obligations.PlacedWordRunsNext : Prop :=
  ∀ (s : State) (w : Word), s.mem.wf →
    step (s.withFetchWord 32 w.toNat) =
      exec (decode (launchVariant s.config.variant w) w) (s.withFetchWord 32 w.toNat)
end

