-- ==== Sys2Proof/Laws/Decode.lean ====
section
/-! SUPPORT. The fields of encoded words, a word rebuilt from its fields, and the masks of the opcode table. -/

namespace Sys2Proof

@[simp] theorem regOfBits_bitsOfReg (r : RegIdx) : regOfBits (bitsOfReg r) = r := rfl
@[simp] theorem bitsOfReg_regOfBits (b : BitVec 5) : bitsOfReg (regOfBits b) = b := rfl

/-- A field above the lowest part of a word lies in the rest of it. -/
theorem field_above {n m : Nat} (x : BitVec n) (y : BitVec m) (lo len : Nat) :
    (x ++ y).extractLsb' (lo + m) len = x.extractLsb' lo len := by
  rw [BitVec.extractLsb'_append_eq_of_le (Nat.le_add_left m lo), Nat.add_sub_cancel]

section Fields

variable (rs rt rd : RegIdx) (g : BitVec 5) (funct : BitVec 6)

@[simp] theorem opcodeOf_encodeR : opcodeOf (encodeR rs rt rd g funct) = 0x00#6 :=
  (field_above _ _ 20 6).trans ((field_above _ _ 15 6).trans ((field_above _ _ 10 6).trans ((field_above _ _ 5 6).trans ((field_above _ _ 0 6).trans (BitVec.extractLsb'_eq_self)))))

@[simp] theorem rsOf_encodeR : rsOf (encodeR rs rt rd g funct) = rs :=
  congrArg regOfBits ((field_above _ _ 15 5).trans ((field_above _ _ 10 5).trans ((field_above _ _ 5 5).trans ((field_above _ _ 0 5).trans (BitVec.extractLsb'_append_eq_right)))))

@[simp] theorem rtOf_encodeR : rtOf (encodeR rs rt rd g funct) = rt :=
  congrArg regOfBits ((field_above _ _ 10 5).trans ((field_above _ _ 5 5).trans ((field_above _ _ 0 5).trans (BitVec.extractLsb'_append_eq_right))))

@[simp] theorem rdOf_encodeR : rdOf (encodeR rs rt rd g funct) = rd :=
  congrArg regOfBits ((field_above _ _ 5 5).trans ((field_above _ _ 0 5).trans (BitVec.extractLsb'_append_eq_right)))

@[simp] theorem bits10to6_encodeR : bits10to6 (encodeR rs rt rd g funct) = g :=
  (field_above _ _ 0 5).trans (BitVec.extractLsb'_append_eq_right)

@[simp] theorem functOf_encodeR : functOf (encodeR rs rt rd g funct) = funct :=
  BitVec.extractLsb'_append_eq_right

end Fields

section Fields

variable (op : BitVec 6) (rs : RegIdx) (b : BitVec 5) (imm : BitVec 16) (g : BitVec 26)

@[simp] theorem opcodeOf_encodeI : opcodeOf (encodeI op rs b imm) = op :=
  (field_above _ _ 10 6).trans ((field_above _ _ 5 6).trans ((field_above _ _ 0 6).trans (BitVec.extractLsb'_eq_self)))

@[simp] theorem rsOf_encodeI : rsOf (encodeI op rs b imm) = rs :=
  congrArg regOfBits ((field_above _ _ 5 5).trans ((field_above _ _ 0 5).trans (BitVec.extractLsb'_append_eq_right)))

@[simp] theorem bits20to16_encodeI : bits20to16 (encodeI op rs b imm) = b :=
  (field_above _ _ 0 5).trans (BitVec.extractLsb'_append_eq_right)

@[simp] theorem rtOf_encodeI : rtOf (encodeI op rs b imm) = regOfBits b :=
  congrArg regOfBits (bits20to16_encodeI op rs b imm)

@[simp] theorem imm16Of_encodeI : imm16Of (encodeI op rs b imm) = imm :=
  BitVec.extractLsb'_append_eq_right

@[simp] theorem opcodeOf_encodeBare : opcodeOf (encodeBare op g) = op :=
  BitVec.extractLsb'_append_eq_left

@[simp] theorem bits25to0_encodeBare : bits25to0 (encodeBare op g) = g :=
  BitVec.extractLsb'_append_eq_right

end Fields

/-! ### A word rebuilt from its fields -/

/-- Two adjacent fields make one. -/
theorem append_fields (w : Word) (lo n m : Nat) :
    w.extractLsb' (lo + m) n ++ w.extractLsb' lo m = w.extractLsb' lo (n + m) :=
  BitVec.extractLsb'_append_extractLsb'_eq_extractLsb' rfl

theorem encodeR_of_fields {w : Word} (h : opcodeOf w = 0x00#6) :
    encodeR (rsOf w) (rtOf w) (rdOf w) (bits10to6 w) (functOf w) = w := by
  have h26 : 0x00#6 = w.extractLsb' 26 6 := h.symm
  have h21 : w.extractLsb' 26 6 ++ w.extractLsb' 21 5 = w.extractLsb' 21 11 := append_fields w 21 6 5
  have h16 : w.extractLsb' 21 11 ++ w.extractLsb' 16 5 = w.extractLsb' 16 16 := append_fields w 16 11 5
  have h11 : w.extractLsb' 16 16 ++ w.extractLsb' 11 5 = w.extractLsb' 11 21 := append_fields w 11 16 5
  have h6 : w.extractLsb' 11 21 ++ w.extractLsb' 6 5 = w.extractLsb' 6 26 := append_fields w 6 21 5
  have h0 : w.extractLsb' 6 26 ++ w.extractLsb' 0 6 = w.extractLsb' 0 32 := append_fields w 0 26 6
  have hw : w.extractLsb' 0 32 = w := BitVec.extractLsb'_eq_self
  show 0x00#6 ++ w.extractLsb' 21 5 ++ w.extractLsb' 16 5 ++ w.extractLsb' 11 5 ++ w.extractLsb' 6 5
    ++ w.extractLsb' 0 6 = w
  rw [h26, h21, h16, h11, h6, h0, hw]

theorem encodeI_of_fields (w : Word) :
    encodeI (opcodeOf w) (rsOf w) (bits20to16 w) (imm16Of w) = w := by
  have h21 : w.extractLsb' 26 6 ++ w.extractLsb' 21 5 = w.extractLsb' 21 11 := append_fields w 21 6 5
  have h16 : w.extractLsb' 21 11 ++ w.extractLsb' 16 5 = w.extractLsb' 16 16 := append_fields w 16 11 5
  have h0 : w.extractLsb' 16 16 ++ w.extractLsb' 0 16 = w.extractLsb' 0 32 := append_fields w 0 16 16
  have hw : w.extractLsb' 0 32 = w := BitVec.extractLsb'_eq_self
  show w.extractLsb' 26 6 ++ w.extractLsb' 21 5 ++ w.extractLsb' 16 5 ++ w.extractLsb' 0 16 = w
  rw [h21, h16, h0, hw]

theorem encodeBare_of_fields (w : Word) : encodeBare (opcodeOf w) (bits25to0 w) = w :=
  (append_fields w 0 6 26).trans BitVec.extractLsb'_eq_self

theorem bitsOfReg_rtOf (w : Word) : bitsOfReg (rtOf w) = bits20to16 w := rfl

/-! ### The masks of the opcode table -/

/-- The mask 0xFC000000 keeps the opcode. -/
theorem and_opcode_mask (w : Word) : w &&& 0xFC000000 = opcodeOf w ++ 0#26 := by
  apply BitVec.eq_of_getLsbD_eq
  intro i hi
  simp only [opcodeOf, BitVec.getLsbD_and, BitVec.getLsbD_append, BitVec.getLsbD_extractLsb']
  interval_cases i <;> simp

/-- The mask 0xFC00003F keeps the opcode and `funct`. -/
theorem and_opcode_funct_mask (w : Word) : w &&& 0xFC00003F = opcodeOf w ++ 0#20 ++ functOf w := by
  apply BitVec.eq_of_getLsbD_eq
  intro i hi
  simp only [opcodeOf, functOf, BitVec.getLsbD_and, BitVec.getLsbD_append, BitVec.getLsbD_extractLsb']
  interval_cases i <;> simp

/-- A word matches an opcode under the mask 0xFC000000 exactly when it has the opcode. -/
theorem opcode_mask_iff (w : Word) (op : BitVec 6) : w &&& 0xFC000000 = op ++ 0#26 ↔ opcodeOf w = op := by
  rw [and_opcode_mask]
  constructor
  · intro h
    have h' := congrArg opcodeOf h
    exact BitVec.extractLsb'_append_eq_left.symm.trans (h'.trans BitVec.extractLsb'_append_eq_left)
  · intro h
    rw [h]

/-- A word matches an opcode and a `funct` under the mask 0xFC00003F exactly when it has both. -/
theorem opcode_funct_mask_iff (w : Word) (op funct : BitVec 6) :
    w &&& 0xFC00003F = op ++ 0#20 ++ funct ↔ opcodeOf w = op ∧ functOf w = funct := by
  have hop (x y : BitVec 6) : opcodeOf (x ++ 0#20 ++ y) = x :=
    (field_above _ _ 20 6).trans BitVec.extractLsb'_append_eq_left
  have hf (x y : BitVec 6) : functOf (x ++ 0#20 ++ y) = y := BitVec.extractLsb'_append_eq_right
  rw [and_opcode_funct_mask]
  constructor
  · intro h
    have h1 := congrArg opcodeOf h
    have h2 := congrArg functOf h
    rw [hop, hop] at h1
    rw [hf, hf] at h2
    exact ⟨h1, h2⟩
  · rintro ⟨rfl, rfl⟩
    rfl

end Sys2Proof
end

