-- ==== Sys2Proof/Laws/Memory.lean ====
section
/-! SUPPORT. Memory: read after write, the canonical form, and the words the loader places. -/

namespace Sys2Proof.Machine

/-! ### Bytes -/

/-- An address below every listed one reads as unlisted. -/
theorem readByte_eq_unlisted_of_lt {m : Memory} {x : Nat} (h : ∀ c ∈ m, x < c.1) :
    m.readByte x = unlistedByte := by
  induction m with
  | nil => rfl
  | cons c m ih =>
    have hc : x < c.1 := h c (by simp)
    simp only [Memory.readByte, Nat.ne_of_lt hc, if_false]
    exact ih fun d hd => h d (by simp [hd])

/-- Reading any byte after writing one, in a memory of canonical form. -/
theorem readByte_writeByte {m : Memory} (hm : m.wf) (x y : Nat) (v : Byte) :
    (m.writeByte x v).readByte y = if y = x then v else m.readByte y := by
  induction m with
  | nil =>
    by_cases hv : v = unlistedByte <;> by_cases hy : y = x <;> simp [Memory.writeByte, Memory.readByte, hv, hy]
  | cons c m ih =>
    obtain ⟨a, b⟩ := c
    obtain ⟨hs, hn⟩ := hm
    rw [List.pairwise_cons] at hs
    have hw : Memory.wf m := ⟨hs.2, fun d hd => hn d (by simp [hd])⟩
    have hlow : Memory.readByte m a = unlistedByte := readByte_eq_unlisted_of_lt hs.1
    rcases Nat.lt_trichotomy x a with hx | hx | hx
    · have hlow' : Memory.readByte m x = unlistedByte :=
        readByte_eq_unlisted_of_lt fun d hd => hx.trans (hs.1 d hd)
      by_cases hv : v = unlistedByte <;> by_cases hy : y = x <;>
        simp_all [Memory.writeByte, Memory.readByte, Nat.ne_of_lt]
    · subst hx
      by_cases hv : v = unlistedByte <;> by_cases hy : y = x <;>
        simp_all [Memory.writeByte, Memory.readByte]
    · have h1 : ¬ x < a := by omega
      have h2 : ¬ x = a := by omega
      simp only [Memory.writeByte, h1, h2, if_false, Memory.readByte, ih hw]
      by_cases hy : y = a <;> by_cases hyx : y = x <;> simp_all

/-- The addresses listed after a write: the old ones, and the one written. -/
theorem mem_writeByte {m : Memory} {x : Nat} {v : Byte} {c : Host.Cell} (h : c ∈ m.writeByte x v) :
    c ∈ m ∨ (c = (x, v) ∧ v ≠ unlistedByte) := by
  induction m with
  | nil =>
    by_cases hv : v = unlistedByte <;> simp_all [Memory.writeByte]
  | cons d m ih =>
    obtain ⟨a, b⟩ := d
    simp only [Memory.writeByte] at h
    split at h
    · by_cases hv : v = unlistedByte <;> simp_all
      tauto
    · split at h
      · by_cases hv : v = unlistedByte <;> simp_all
        tauto
      · rcases List.mem_cons.1 h with h | h
        · exact .inl (by simp [h])
        · exact (ih h).imp (fun h => by simp [h]) id

/-- A write keeps the canonical form. -/
theorem wf_writeByte {m : Memory} (hm : m.wf) (x : Nat) (v : Byte) : (m.writeByte x v).wf := by
  induction m with
  | nil => by_cases hv : v = unlistedByte <;> simp [Memory.writeByte, Memory.wf, hv]
  | cons c m ih =>
    obtain ⟨a, b⟩ := c
    have hn := hm.2
    obtain ⟨hlow, hs⟩ := List.pairwise_cons.1 hm.1
    have hw : Memory.wf m := ⟨hs, fun d hd => hn d (by simp [hd])⟩
    simp only [Memory.writeByte]
    split
    · split
      · exact hm
      · rename_i hx hv
        refine ⟨List.pairwise_cons.2 ⟨?_, hm.1⟩, ?_⟩
        · intro d hd
          rcases List.mem_cons.1 hd with rfl | hd
          · exact hx
          · exact Nat.lt_trans hx (hlow d hd)
        · intro d hd
          rcases List.mem_cons.1 hd with rfl | hd
          · exact hv
          · exact hn d hd
    · split
      · rename_i hx
        subst hx
        split
        · exact hw
        · rename_i hv
          refine ⟨List.pairwise_cons.2 ⟨hlow, hs⟩, ?_⟩
          intro d hd
          rcases List.mem_cons.1 hd with rfl | hd
          · exact hv
          · exact hw.2 d hd
      · refine ⟨List.pairwise_cons.2 ⟨?_, (ih hw).1⟩, ?_⟩
        · intro d hd
          rcases mem_writeByte hd with hd | ⟨rfl, -⟩
          · exact hlow d hd
          · show a < x
            omega
        · intro d hd
          rcases List.mem_cons.1 hd with rfl | hd
          · exact hn _ (by simp)
          · exact (ih hw).2 d hd

/-- A write inside `n` words keeps memory within them. -/
theorem within_writeByte {m : Memory} {n x : Nat} (hm : m.Within n) (hx : x < 4 * n) (v : Byte) :
    (m.writeByte x v).Within n := by
  intro c hc
  rcases mem_writeByte hc with hc | ⟨rfl, -⟩
  · exact hm c hc
  · exact hx

/-! ### Words -/

/-- The four bytes of a word make the word again, in either byte order. -/
theorem joinBytes_byteOfWord (o : ByteOrder) (w : Word) :
    joinBytes o (byteOfWord o w 0) (byteOfWord o w 1) (byteOfWord o w 2) (byteOfWord o w 3) = w := by
  have h1 : w.extractLsb' 24 8 ++ w.extractLsb' 16 8 = w.extractLsb' 16 16 :=
    BitVec.extractLsb'_append_extractLsb'_eq_extractLsb' rfl
  have h2 : w.extractLsb' 16 16 ++ w.extractLsb' 8 8 = w.extractLsb' 8 24 :=
    BitVec.extractLsb'_append_extractLsb'_eq_extractLsb' rfl
  have h3 : w.extractLsb' 8 24 ++ w.extractLsb' 0 8 = w.extractLsb' 0 32 :=
    BitVec.extractLsb'_append_extractLsb'_eq_extractLsb' rfl
  have h4 : w.extractLsb' 0 32 = w := BitVec.extractLsb'_eq_self
  have h : w.extractLsb' 24 8 ++ w.extractLsb' 16 8 ++ w.extractLsb' 8 8 ++ w.extractLsb' 0 8 = w := by
    rw [h1, h2, h3, h4]
  cases o
  · exact h
  · exact h

/-- A word write keeps the canonical form. -/
theorem wf_writeWord {m : Memory} (hm : m.wf) (o : ByteOrder) (k : Nat) (w : Word) :
    (m.writeWord o k w).wf :=
  wf_writeByte (wf_writeByte (wf_writeByte (wf_writeByte hm _ _) _ _) _ _) _ _

/-- A word write inside `n` words keeps memory within them. -/
theorem within_writeWord {m : Memory} {n k : Nat} (hm : m.Within n) (hk : k < n) (o : ByteOrder) (w : Word) :
    (m.writeWord o k w).Within n :=
  within_writeByte (within_writeByte (within_writeByte (within_writeByte hm (by omega) _) (by omega) _)
    (by omega) _) (by omega) _

/-- Reading a byte after writing a word: only the word's four bytes change. -/
theorem readByte_writeWord_of_outside {m : Memory} (hm : m.wf) (o : ByteOrder) {k y : Nat} (w : Word)
    (h : y / 4 ≠ k) : (m.writeWord o k w).readByte y = m.readByte y := by
  have e0 : y ≠ 4 * k := by omega
  have e1 : y ≠ 4 * k + 1 := by omega
  have e2 : y ≠ 4 * k + 2 := by omega
  have e3 : y ≠ 4 * k + 3 := by omega
  have h1 := wf_writeByte hm (4 * k) (byteOfWord o w 0)
  have h2 := wf_writeByte h1 (4 * k + 1) (byteOfWord o w 1)
  have h3 := wf_writeByte h2 (4 * k + 2) (byteOfWord o w 2)
  simp only [Memory.writeWord, readByte_writeByte h3, readByte_writeByte h2, readByte_writeByte h1,
    readByte_writeByte hm, e0, e1, e2, e3, if_false]

/-- Reading any word after writing one. -/
theorem readWord_writeWord {m : Memory} (hm : m.wf) (o : ByteOrder) (k j : Nat) (w : Word) :
    (m.writeWord o k w).readWord o j = if j = k then w else m.readWord o j := by
  split
  · rename_i h
    subst h
    have h1 := wf_writeByte hm (4 * j) (byteOfWord o w 0)
    have h2 := wf_writeByte h1 (4 * j + 1) (byteOfWord o w 1)
    have h3 := wf_writeByte h2 (4 * j + 2) (byteOfWord o w 2)
    simp only [Memory.readWord, Memory.writeWord, readByte_writeByte h3, readByte_writeByte h2,
      readByte_writeByte h1, readByte_writeByte hm]
    simpa using joinBytes_byteOfWord o w
  · rename_i h
    simp only [Memory.readWord]
    rw [readByte_writeWord_of_outside hm o w (by omega), readByte_writeWord_of_outside hm o w (by omega),
      readByte_writeWord_of_outside hm o w (by omega), readByte_writeWord_of_outside hm o w (by omega)]

/-- The loader's writes keep the canonical form. -/
theorem wf_writeWords {m : Memory} (hm : m.wf) (o : ByteOrder) (k : Nat) (ws : List Word) :
    (Memory.writeWords o m k ws).wf := by
  induction ws generalizing m k with
  | nil => exact hm
  | cons w ws ih => exact ih (wf_writeWord hm o k w) (k + 1)

end Sys2Proof.Machine
end

