-- ==== Sys2Proof/Laws/Operands.lean ====
section
/-! SUPPORT. The immediate and the branch condition in the terms of the library. -/

namespace Sys2Proof.Machine

/-- The mask of R11 is two's-complement sign extension. -/
theorem sext32_eq_signExtend (v : BitVec 16) : sext32 v = v.signExtend 32 := by
  apply BitVec.eq_of_getLsbD_eq
  intro i hi
  unfold sext32
  split <;> rename_i h <;> interval_cases i <;>
    simp_all [BitVec.getElem_signExtend, BitVec.msb_eq_getLsbD_last]

/-- The branch condition on a difference: the operands differ (R97). -/
theorem branchTaken_sub (draw a b : Word) : branchTaken (alu draw a b .sub) = true ↔ a ≠ b := by
  simp [branchTaken, alu, BitVec.sub_eq_iff_eq_add]

end Sys2Proof.Machine
end

