-- ==== Sys2Proof/Laws/PerInstr.lean ====
section
/-! SUPPORT. Per instruction: its encoding has the bits that its row of spec/opcode_table.json fixes. -/

namespace Sys2Proof.Laws

/-- The encoded word takes the instruction's own row of the opcode table, in every variant that has the
instruction. -/
def TableMatch.Statement (i : Instr) : Prop :=
  ∀ v, i.wf v = true → ∃ r ∈ opcodeTable, r.mnemonic = i.mnemonic ∧ r.takes v (encode i) = true

theorem TableMatch.add (rs rt rd : RegIdx) (g : BitVec 5) : TableMatch.Statement (.add rs rt rd g) := by
  intro v _
  refine ⟨⟨.ADD, 0x00000020, 0xFC00003F, [.v1, .v2]⟩, by simp [opcodeTable], rfl, ?_⟩
  simp only [TableRow.takes, and_opcode_funct_mask, encode, opcodeOf_encodeR, functOf_encodeR]
  cases v <;> decide

theorem TableMatch.sub (rs rt rd : RegIdx) (g : BitVec 5) : TableMatch.Statement (.sub rs rt rd g) := by
  intro v _
  refine ⟨⟨.SUB, 0x00000022, 0xFC00003F, [.v1, .v2]⟩, by simp [opcodeTable], rfl, ?_⟩
  simp only [TableRow.takes, and_opcode_funct_mask, encode, opcodeOf_encodeR, functOf_encodeR]
  cases v <;> decide

theorem TableMatch.rtypeOther (rs rt rd : RegIdx) (g : BitVec 5) (funct : BitVec 6) :
    TableMatch.Statement (.rtypeOther rs rt rd g funct) := by
  intro v _
  refine ⟨⟨.RTYPE_OTHER, 0x00000000, 0xFC000000, [.v1, .v2]⟩, by simp [opcodeTable], rfl, ?_⟩
  simp only [TableRow.takes, and_opcode_mask, encode, opcodeOf_encodeR]
  cases v <;> decide

theorem TableMatch.addi (rs rt : RegIdx) (imm : BitVec 16) : TableMatch.Statement (.addi rs rt imm) := by
  intro v _
  refine ⟨⟨.ADDI, 0x20000000, 0xFC000000, [.v1, .v2]⟩, by simp [opcodeTable], rfl, ?_⟩
  simp only [TableRow.takes, and_opcode_mask, encode, opcodeOf_encodeI]
  cases v <;> decide

theorem TableMatch.bne (rs rt : RegIdx) (imm : BitVec 16) : TableMatch.Statement (.bne rs rt imm) := by
  intro v _
  refine ⟨⟨.BNE, 0x14000000, 0xFC000000, [.v1, .v2]⟩, by simp [opcodeTable], rfl, ?_⟩
  simp only [TableRow.takes, and_opcode_mask, encode, opcodeOf_encodeI]
  cases v <;> decide

theorem TableMatch.j (rs : RegIdx) (g : BitVec 5) (imm : BitVec 16) : TableMatch.Statement (.j rs g imm) := by
  intro v hv
  have hv' : v = .v1 := by simpa [Instr.wf] using hv
  subst hv'
  refine ⟨⟨.J, 0x08000000, 0xFC000000, [.v1]⟩, by simp [opcodeTable], rfl, ?_⟩
  simp only [TableRow.takes, and_opcode_mask, encode, opcodeOf_encodeI]
  decide

theorem TableMatch.lw (rs rt : RegIdx) (imm : BitVec 16) : TableMatch.Statement (.lw rs rt imm) := by
  intro v hv
  have hv' : v = .v2 := by simpa [Instr.wf] using hv
  subst hv'
  refine ⟨⟨.LW, 0x8C000000, 0xFC000000, [.v2]⟩, by simp [opcodeTable], rfl, ?_⟩
  simp only [TableRow.takes, and_opcode_mask, encode, opcodeOf_encodeI]
  decide

theorem TableMatch.hlt (g : BitVec 26) : TableMatch.Statement (.hlt g) := by
  intro v _
  refine ⟨⟨.HLT, 0xFC000000, 0xFC000000, [.v1, .v2]⟩, by simp [opcodeTable], rfl, ?_⟩
  simp only [TableRow.takes, and_opcode_mask, encode, opcodeOf_encodeBare]
  cases v <;> decide

theorem TableMatch.unrecognized (op : BitVec 6) (g : BitVec 26) :
    TableMatch.Statement (.unrecognized op g) := by
  intro v _
  refine ⟨⟨.UNRECOGNIZED, 0x00000000, 0x00000000, [.v1, .v2]⟩, by simp [opcodeTable], rfl, ?_⟩
  cases v <;> simp [TableRow.takes]

end Sys2Proof.Laws
end

