-- ==== Sys2Proof/Laws/State.lean ====
section
/-! SUPPORT. One lemma per field per update, so that no proof unfolds a record update. -/

namespace Sys2Proof.Machine

variable (s : State) (r : RegIdx) (v t : Word) (st : RunStatus)

/-! ### `setReg` -/

@[simp] theorem setReg_config : (s.setReg r v).config = s.config := rfl
@[simp] theorem setReg_pc : (s.setReg r v).pc = s.pc := rfl
@[simp] theorem setReg_status : (s.setReg r v).status = s.status := rfl
@[simp] theorem setReg_base : (s.setReg r v).base = s.base := rfl
@[simp] theorem setReg_mem : (s.setReg r v).mem = s.mem := rfl
@[simp] theorem setReg_draws : (s.setReg r v).draws = s.draws := rfl

@[simp] theorem reg_setReg_same : (s.setReg r v).reg r = v := by
  simp [State.reg, State.setReg]

theorem reg_setReg_of_ne {q : RegIdx} (h : q ≠ r) : (s.setReg r v).reg q = s.reg q := by
  have : r.val ≠ q.val := fun e => h (Fin.ext e.symm)
  simp [State.reg, State.setReg, Vector.getElem_set_ne _ _ this]

theorem reg_setReg (q : RegIdx) : (s.setReg r v).reg q = if q = r then v else s.reg q := by
  split
  · subst q; exact reg_setReg_same s r v
  · exact reg_setReg_of_ne s r v ‹_›

/-! ### `setPc` -/

@[simp] theorem setPc_config : (s.setPc t).config = s.config := rfl
@[simp] theorem setPc_regs : (s.setPc t).regs = s.regs := rfl
@[simp] theorem setPc_pc : (s.setPc t).pc = t := rfl
@[simp] theorem setPc_status : (s.setPc t).status = s.status := rfl
@[simp] theorem setPc_base : (s.setPc t).base = s.base := rfl
@[simp] theorem setPc_mem : (s.setPc t).mem = s.mem := rfl
@[simp] theorem setPc_draws : (s.setPc t).draws = s.draws := rfl
@[simp] theorem reg_setPc (q : RegIdx) : (s.setPc t).reg q = s.reg q := rfl

/-! ### `advance` -/

@[simp] theorem advance_config : s.advance.config = s.config := rfl
@[simp] theorem advance_regs : s.advance.regs = s.regs := rfl
@[simp] theorem advance_pc : s.advance.pc = s.pc + 4 := rfl
@[simp] theorem advance_status : s.advance.status = s.status := rfl
@[simp] theorem advance_base : s.advance.base = s.base := rfl
@[simp] theorem advance_mem : s.advance.mem = s.mem := rfl
@[simp] theorem advance_draws : s.advance.draws = s.draws := rfl
@[simp] theorem reg_advance (q : RegIdx) : s.advance.reg q = s.reg q := rfl

/-! ### `endRun` -/

@[simp] theorem endRun_config : (s.endRun st).config = s.config := rfl
@[simp] theorem endRun_regs : (s.endRun st).regs = s.regs := rfl
@[simp] theorem endRun_pc : (s.endRun st).pc = s.pc := rfl
@[simp] theorem endRun_status : (s.endRun st).status = st := rfl
@[simp] theorem endRun_base : (s.endRun st).base = s.base := rfl
@[simp] theorem endRun_mem : (s.endRun st).mem = s.mem := rfl
@[simp] theorem endRun_draws : (s.endRun st).draws = s.draws := rfl
@[simp] theorem reg_endRun (q : RegIdx) : (s.endRun st).reg q = s.reg q := rfl

/-! ### `takeDraw` -/

@[simp] theorem takeDraw_config : s.takeDraw.config = s.config := rfl
@[simp] theorem takeDraw_regs : s.takeDraw.regs = s.regs := rfl
@[simp] theorem takeDraw_pc : s.takeDraw.pc = s.pc := rfl
@[simp] theorem takeDraw_status : s.takeDraw.status = s.status := rfl
@[simp] theorem takeDraw_base : s.takeDraw.base = s.base := rfl
@[simp] theorem takeDraw_mem : s.takeDraw.mem = s.mem := rfl
@[simp] theorem takeDraw_draws : s.takeDraw.draws = s.draws + 1 := rfl
@[simp] theorem reg_takeDraw (q : RegIdx) : s.takeDraw.reg q = s.reg q := rfl

/-! ### `writeBack` -/

@[simp] theorem writeBack_config : (s.writeBack r v).config = s.config := rfl
@[simp] theorem writeBack_pc : (s.writeBack r v).pc = s.pc + 4 := rfl
@[simp] theorem writeBack_status : (s.writeBack r v).status = s.status := rfl
@[simp] theorem writeBack_base : (s.writeBack r v).base = s.base := rfl
@[simp] theorem writeBack_mem : (s.writeBack r v).mem = s.mem := rfl
@[simp] theorem writeBack_draws : (s.writeBack r v).draws = s.draws := rfl

theorem reg_writeBack (q : RegIdx) : (s.writeBack r v).reg q = if q = r then v else s.reg q :=
  reg_setReg s r v q

/-- Two states with equal registers, one by one, have equal register files. -/
theorem regs_ext {s t : State} (h : ∀ q, s.reg q = t.reg q) : s.regs = t.regs := by
  apply Vector.ext
  intro i hi
  exact h ⟨i, hi⟩

end Sys2Proof.Machine
end

