-- ==== Sys2Proof/Laws/Step.lean ====
section
/-! SUPPORT. What the memory accesses, the meanings and one step can do, each said once. -/

namespace Sys2Proof.Machine

/-! ### Accesses -/

/-- A data read answers the word at the divided address, or nothing at an index outside memory. -/
theorem memRead_cases (s : State) (a : Word) :
    (a.toNat / 4 < s.config.memWords ∧ s.memRead a = some (s.word (a.toNat / 4))) ∨
      (s.config.memWords ≤ a.toNat / 4 ∧ s.memRead a = none) := by
  by_cases h : a.toNat / 4 < s.config.memWords
  · exact .inl ⟨h, by simp [State.memRead, State.wordAt, h]⟩
  · exact .inr ⟨Nat.le_of_not_lt h, by simp [State.memRead, State.wordAt, h]⟩

/-- A fetch answers the word at the divided `pc`, or nothing outside memory. -/
theorem fetch_cases (s : State) :
    (s.pc.toNat / 4 < s.config.memWords ∧ s.fetch = some (s.word (s.pc.toNat / 4))) ∨
      (s.config.memWords ≤ s.pc.toNat / 4 ∧ s.fetch = none) := by
  by_cases h : s.pc.toNat / 4 < s.config.memWords
  · exact .inl ⟨h, by simp [State.fetch, State.wordAt, h]⟩
  · exact .inr ⟨Nat.le_of_not_lt h, by simp [State.fetch, State.wordAt, h]⟩

/-- Words depend on memory and the byte order alone. -/
theorem word_congr {s t : State} (hm : t.mem = s.mem) (ho : t.config.loaderByteOrder = s.config.loaderByteOrder)
    (k : Nat) : t.word k = s.word k := by
  simp [State.word, hm, ho]

/-! ### The meanings -/

/-- `exec` answers `next t` in one of these ways, and in no other: it writes a register and advances,
with or without a draw, or it only sets `pc`, or it ends the run. -/
theorem exec_next_cases {i : Instr} {s t : State} (h : exec i s = .next t) :
    (∃ r v, t = s.writeBack r v) ∨ (∃ r v, t = (s.writeBack r v).takeDraw) ∨ (∃ a, t = s.setPc a) ∨
      (∃ st, st ≠ .running ∧ t = s.endRun st) := by
  cases i with
  | add rs rt rd g => cases h; exact .inl ⟨_, _, rfl⟩
  | sub rs rt rd g => cases h; exact .inl ⟨_, _, rfl⟩
  | rtypeOther rs rt rd g f => cases h; exact .inr (.inl ⟨_, _, rfl⟩)
  | addi rs rt imm => cases h; exact .inl ⟨_, _, rfl⟩
  | bne rs rt imm =>
    simp only [exec, execBne] at h
    split at h <;> cases h
    · exact .inr (.inr (.inl ⟨_, rfl⟩))
    · exact .inr (.inr (.inl ⟨_, rfl⟩))
  | j rs g imm =>
    simp only [exec, execJ] at h
    split at h <;> cases h
    · exact .inr (.inr (.inl ⟨_, rfl⟩))
    · exact .inr (.inr (.inl ⟨_, rfl⟩))
  | lw rs rt imm =>
    simp only [exec, execLw] at h
    split at h <;> cases h
    · exact .inr (.inr (.inl ⟨_, rfl⟩))
    · simp only [loadWord]
      split
      · exact .inl ⟨_, _, rfl⟩
      · exact .inr (.inr (.inr ⟨_, by decide, rfl⟩))
  | hlt g => cases h; exact .inr (.inr (.inr ⟨_, by decide, rfl⟩))
  | unrecognized op g => cases h; exact .inr (.inr (.inl ⟨_, rfl⟩))

/-! ### One step -/

theorem step_of_fetch {s : State} {w : Word} (hs : s.status = .running) (hf : s.fetch = some w) :
    step s = exec (decode s.config.variant w) s := by
  simp [step, hs, hf]

theorem step_of_not_running {s : State} (hs : s.status ≠ .running) : step s = .next s := by
  unfold step
  split <;> simp_all

/-- What one step can do: stay at a terminal status, stop at a fetch outside memory, or run the decoded
instruction. -/
theorem step_cases (s : State) :
    (s.status ≠ .running ∧ step s = .next s) ∨
      (s.status = .running ∧ s.config.memWords ≤ s.pc.toNat / 4 ∧ step s = .next (s.endRun .outOfBounds)) ∨
      (s.status = .running ∧ s.pc.toNat / 4 < s.config.memWords ∧
        step s = exec (decode s.config.variant (s.word (s.pc.toNat / 4))) s) := by
  by_cases hs : s.status = .running
  · rcases fetch_cases s with ⟨hb, hf⟩ | ⟨hb, hf⟩
    · exact .inr (.inr ⟨hs, hb, step_of_fetch hs hf⟩)
    · exact .inr (.inl ⟨hs, hb, by simp [step, hs, hf]⟩)
  · exact .inl ⟨hs, step_of_not_running hs⟩

end Sys2Proof.Machine
end

