-- ==== Sys2Proof/Laws/Safety.lean ====
section
/-! SUPPORT. The shapes of a next state as frames, runs step by step, and renamed registers. -/

namespace Sys2Proof.Machine

/-! ### The four shapes of a next state (`exec_next_cases`) as frames -/

theorem writesAndAdvances_writeBack (s : State) (r : RegIdx) (v : Word) :
    WritesAndAdvances r v s (s.writeBack r v) where
  written := ⟨by simp [reg_writeBack], fun q h => by simp [reg_writeBack, h]⟩
  pc := rfl
  draws := rfl
  rest := ⟨rfl, rfl, rfl, fun _ => rfl, rfl⟩

theorem onlySetsPc_setPc (s : State) (t : Word) : OnlySetsPc t s (s.setPc t) where
  regs := fun _ => rfl
  pc := rfl
  draws := rfl
  rest := ⟨rfl, rfl, rfl, fun _ => rfl, rfl⟩

theorem onlySetsStatus_endRun (s : State) (st : RunStatus) : OnlySetsStatus st s (s.endRun st) where
  status := rfl
  regs := fun _ => rfl
  pc := rfl
  draws := rfl
  config := rfl
  base := rfl
  bytes := fun _ => rfl
  mem := rfl

/-! ### Runs -/

/-- A run of one more step, when the first step answers a next state. -/
theorem run_succ {s t : State} (k : Nat) (h : step s = .next t) :
    Host.Core.run Sys2Proof.core (k + 1) s = Host.Core.run Sys2Proof.core k t := by
  have h' : Sys2Proof.core.step s = .next t := h
  simp only [Host.Core.run, h']

/-- A run of one more step that answers a next state begins with a step that does. -/
theorem run_succ_next {s t : State} {k : Nat} (h : Host.Core.run Sys2Proof.core (k + 1) s = .next t) :
    ∃ u, step s = .next u ∧ Host.Core.run Sys2Proof.core k u = .next t := by
  cases hs : step s with
  | next u => exact ⟨u, rfl, by rw [← run_succ k hs]; exact h⟩
  | fault r => exact nomatch r
  | refused r =>
    have h' : Sys2Proof.core.step s = .refused r := hs
    simp only [Host.Core.run, h'] at h
    cases h

/-- What holds at the start of a run and is kept by every step holds throughout. -/
theorem reaches_induction {P : State → Prop} (hstep : ∀ s t, P s → step s = .next t → P t) {s t : State}
    (hs : P s) (h : Reaches s t) : P t := by
  obtain ⟨k, hk⟩ := h
  induction k generalizing s with
  | zero => cases hk; exact hs
  | succ k ih =>
    obtain ⟨u, hu, hk'⟩ := run_succ_next hk
    exact ih (hstep s u hs hu) hk'

/-! ### Renamed registers -/

/-- Renaming changes the register file alone. The proofs unfold `State.rename` by name: left to
unification, the register file would be compared entry by entry. -/
@[simp] theorem rename_config (π : Equiv.Perm RegIdx) (s : State) : (s.rename π).config = s.config := by
  simp only [State.rename]

@[simp] theorem rename_pc (π : Equiv.Perm RegIdx) (s : State) : (s.rename π).pc = s.pc := by
  simp only [State.rename]

@[simp] theorem rename_status (π : Equiv.Perm RegIdx) (s : State) : (s.rename π).status = s.status := by
  simp only [State.rename]

@[simp] theorem rename_base (π : Equiv.Perm RegIdx) (s : State) : (s.rename π).base = s.base := by
  simp only [State.rename]

@[simp] theorem rename_mem (π : Equiv.Perm RegIdx) (s : State) : (s.rename π).mem = s.mem := by
  simp only [State.rename]

@[simp] theorem rename_draws (π : Equiv.Perm RegIdx) (s : State) : (s.rename π).draws = s.draws := by
  simp only [State.rename]

@[simp] theorem rename_draw (π : Equiv.Perm RegIdx) (s : State) : (s.rename π).draw = s.draw := by
  simp only [State.draw, rename_draws]

@[simp] theorem rename_memRead (π : Equiv.Perm RegIdx) (s : State) (a : Word) :
    (s.rename π).memRead a = s.memRead a := by
  simp only [State.memRead, State.wordAt, State.word, rename_config, rename_mem]

theorem reg_rename (π : Equiv.Perm RegIdx) (s : State) (q : RegIdx) : (s.rename π).reg q = s.reg (π.symm q) := by
  simp [State.rename, State.reg]

@[simp] theorem reg_rename_apply (π : Equiv.Perm RegIdx) (s : State) (q : RegIdx) :
    (s.rename π).reg (π q) = s.reg q := by
  rw [reg_rename, Equiv.symm_apply_apply]

theorem rename_setPc (π : Equiv.Perm RegIdx) (s : State) (t : Word) :
    (s.setPc t).rename π = (s.rename π).setPc t := by
  simp only [State.rename, reg_setPc]
  rfl

theorem rename_advance (π : Equiv.Perm RegIdx) (s : State) :
    s.advance.rename π = (s.rename π).advance := by
  simp only [State.advance, rename_setPc, rename_pc]

theorem rename_endRun (π : Equiv.Perm RegIdx) (s : State) (st : RunStatus) :
    (s.endRun st).rename π = (s.rename π).endRun st := by
  simp only [State.rename, reg_endRun]
  rfl

theorem rename_takeDraw (π : Equiv.Perm RegIdx) (s : State) :
    s.takeDraw.rename π = (s.rename π).takeDraw := by
  simp only [State.rename, reg_takeDraw]
  rfl

end Sys2Proof.Machine
end

