-- ==== Sys2Proof/Machine/Assembly.lean ====
section
/-! DEFINITION. The spec's assembler forms (R73, R74) as functions from written operands to an
instruction; bits an instruction does not use assemble as 0. -/

namespace Sys2Proof.Machine

/-- `ADD rd, rs, rt` (R73). -/
def asmAdd (rd rs rt : RegIdx) : Instr := .add rs rt rd 0

/-- `SUB rd, rs, rt` (R74). -/
def asmSub (rd rs rt : RegIdx) : Instr := .sub rs rt rd 0

/-- `ADDI rt, rs, imm` (R73), the immediate a signed number. -/
def asmAddi (rt rs : RegIdx) (imm : Int) : Instr := .addi rs rt (BitVec.ofInt 16 imm)

/-- `BNE rs, rt, imm` (R73), the immediate a signed word offset. -/
def asmBne (rs rt : RegIdx) (imm : Int) : Instr := .bne rs rt (BitVec.ofInt 16 imm)

/-- `J rs, imm` (R74). -/
def asmJ (rs : RegIdx) (imm : Int) : Instr := .j rs 0 (BitVec.ofInt 16 imm)

/-- `LW rt, imm(rs)` (R74). -/
def asmLw (rt : RegIdx) (imm : Int) (rs : RegIdx) : Instr := .lw rs rt (BitVec.ofInt 16 imm)

/-- `HLT` (R73, R74). -/
def asmHlt : Instr := .hlt 0

/-- A register as the assembler writes it, `$n` (R73). -/
def renderReg (r : RegIdx) : String := "$" ++ toString r.val

/-- An immediate as a signed decimal number (R73). -/
def renderImm (imm16 : BitVec 16) : String := toString imm16.toInt

/-- The assembler text of an instruction (R73, R74), none for the two rows that have no mnemonic
(R95, R100). -/
def render : Instr → Option String
  | .add rs rt rd _ => some ("ADD " ++ renderReg rd ++ "," ++ renderReg rs ++ "," ++ renderReg rt)
  | .sub rs rt rd _ => some ("SUB " ++ renderReg rd ++ "," ++ renderReg rs ++ "," ++ renderReg rt)
  | .addi rs rt imm16 => some ("ADDI " ++ renderReg rt ++ "," ++ renderReg rs ++ "," ++ renderImm imm16)
  | .bne rs rt imm16 => some ("BNE " ++ renderReg rs ++ "," ++ renderReg rt ++ "," ++ renderImm imm16)
  | .j rs _ imm16 => some ("J " ++ renderReg rs ++ "," ++ renderImm imm16)
  | .lw rs rt imm16 => some ("LW " ++ renderReg rt ++ "," ++ renderImm imm16 ++ "(" ++ renderReg rs ++ ")")
  | .hlt _ => some "HLT"
  | .rtypeOther _ _ _ _ _ => none
  | .unrecognized _ _ => none

end Sys2Proof.Machine
end

