-- ==== Sys2Proof/Tests/Slice0.lean ====
section
/-! SUPPORT. Tests against the vectors of 95_test_vectors.md (computed by the spec, not by this model), the
well-formedness smoke tests, and for each statement with hypotheses a state and operands that meet them. -/

namespace Sys2Proof.Tests

open Sys2Proof.Machine

/-! ### Small states -/

/-- The vectors' memory: the word under test at word 0, then 0x22 to 0x88 (`N = 8`). -/
def memory8 (w : Word) : List Word := [w, 0x22, 0x33, 0x44, 0x55, 0x66, 0x77, 0x88]

/-- Registers that are zero but for the listed ones. -/
def regsWith : List (RegIdx × Word) → Vector Word 32
  | [] => Vector.replicate 32 0
  | (r, v) :: l => (regsWith l).set r v

/-- A launched state with a word under test at word 0. -/
def start (v : Variant) (w : Word) (regs : List (RegIdx × Word)) : State :=
  State.launch { Config.reset with variant := v, memWords := 8 } 0 (regsWith regs) (memory8 w)

/-- As `start`, with a base word. -/
def startBase (base w : Word) (regs : List (RegIdx × Word)) : State := (start .v2 w regs).withBase base

/-- The word under test at word 2, with `pc = 8`. -/
def startAt8 (v : Variant) (w : Word) (regs : List (RegIdx × Word)) : State :=
  (State.launch { Config.reset with variant := v, memWords := 8 } 0 (regsWith regs) [0, 0, w]).setPc 8

/-- The next state of an outcome. -/
def next? : StepOutcome → Option State
  | .next t => some t
  | .fault _ => none
  | .refused _ => none

/-- The state after one step. -/
def after (s : State) : State := (next? (step s)).getD s

theorem step_eq_after {s : State} (h : (next? (step s)).isSome = true) : step s = .next (after s) := by
  unfold after
  cases hs : step s with
  | next t => rfl
  | fault r => exact nomatch r
  | refused r => simp [hs, next?] at h

/-- Register `r`, `pc` and `status` after one step. -/
def seen (r : RegIdx) (s : State) : Word × Word × RunStatus := ((after s).reg r, (after s).pc, (after s).status)

/-! ### Decoding: one word or more of every family, from the formats of R56 -/

/-- `ADD $2,$2,$1` is 000000 00010 00001 00010 00000 100000. -/
theorem test_decode_add : decode .v1 0b00000000010000010001000000100000#32 = .add 2 1 2 0 := by decide
/-- `SUB $3,$1,$2` is 000000 00001 00010 00011 00000 100010. -/
theorem test_decode_sub : decode .v2 0b00000000001000100001100000100010#32 = .sub 1 2 3 0 := by decide
/-- funct 100100 with rs 1, rt 2, rd 3. -/
theorem test_decode_rtypeOther : decode .v1 0b00000000001000100001100000100100#32 = .rtypeOther 1 2 3 0 0x24 := by decide
/-- `ADDI $2,$1,-1` is 001000 00001 00010 and sixteen ones. -/
theorem test_decode_addi : decode .v1 0b00100000001000101111111111111111#32 = .addi 1 2 0xFFFF := by decide
/-- `BNE $1,$3,-3` is 000101 00001 00011 1111111111111101. -/
theorem test_decode_bne : decode .v2 0b00010100001000111111111111111101#32 = .bne 1 3 0xFFFD := by decide
/-- `J $7,3` is 000010 00111 00000 0000000000000011. -/
theorem test_decode_j : decode .v1 0b00001000111000000000000000000011#32 = .j 7 0 3 := by decide
/-- `LW $5,-4($1)` is 100011 00001 00101 1111111111111100. -/
theorem test_decode_lw : decode .v2 0b10001100001001011111111111111100#32 = .lw 1 5 0xFFFC := by decide
/-- Every word of opcode 111111 is HLT. -/
theorem test_decode_hlt : decode .v1 0b11111111111111111111111111111111#32 = .hlt 0x3FFFFFF := by decide
/-- Opcode 101011 is no row of the control table. -/
theorem test_decode_unrecognized : decode .v2 0b10101100001000100000000000000100#32 = .unrecognized 0x2B 0x0220004 := by decide
/-- In V2 opcode 000010 is unrecognized, and in V1 opcode 100011. -/
theorem test_decode_other_variant :
    decode .v2 0x08000004 = .unrecognized 0x02 4 ∧ decode .v1 0x8C010008 = .unrecognized 0x23 0x0010008 := by decide

/-- Program P1 and the L, J and A vectors, assembled (R73, R74). -/
theorem test_assembled_words :
    encode (asmAdd 2 2 1) = 0x00411020 ∧ encode (asmAddi 1 1 1) = 0x20210001 ∧ encode (asmBne 1 3 (-3)) = 0x1423FFFD ∧
    encode asmHlt = 0xFC000000 ∧ encode (asmSub 3 1 2) = 0x00221822 ∧ encode (asmJ 7 3) = 0x08E00003 ∧
    encode (asmLw 5 (-4) 1) = 0x8C25FFFC := by decide

/-- The text of program P1's branch and of vector L2. -/
theorem test_assembler_text :
    render (asmBne 1 3 (-3)) = some "BNE $1,$3,-3" ∧ render (asmLw 5 (-4) 1) = some "LW $5,-4($1)" := by decide

/-! ### Well-formedness: an ill-formed term for each check -/

theorem smoke_rtypeOther_add : Instr.wf .v1 (.rtypeOther 1 2 3 0 0x20) = false := by decide
theorem smoke_rtypeOther_sub : Instr.wf .v1 (.rtypeOther 1 2 3 0 0x22) = false := by decide
theorem smoke_j_in_v2 : Instr.wf .v2 (.j 0 0 4) = false := by decide
theorem smoke_lw_in_v1 : Instr.wf .v1 (.lw 0 1 8) = false := by decide
theorem smoke_unrecognized_v1 : Instr.wf .v1 (.unrecognized 0x02 0) = false := by decide
theorem smoke_unrecognized_v2 : Instr.wf .v2 (.unrecognized 0x23 0) = false := by decide

/-! ### One step of each instruction, from the vectors -/

/-- A1: the sum wraps. -/
theorem test_add_wraps : seen 3 (start .v1 0x00221820 [(1, 0xFFFFFFFF), (2, 1)]) = (0, 4, .running) := by decide
/-- A4: bits 10:6 are ignored. -/
theorem test_add_ignored_bits : seen 4 (start .v1 0x004327E0 [(2, 5), (3, 7)]) = (12, 4, .running) := by decide
/-- A6: the difference wraps, rs minus rt. -/
theorem test_sub_wraps : seen 3 (start .v1 0x00221822 [(2, 1)]) = (0xFFFFFFFF, 4, .running) := by decide
/-- A16: `pc` and the registers other than rd. -/
theorem test_rtypeOther_frame :
    (after (start .v1 0x00221824 [(1, 1), (2, 2)])).pc = 4 ∧
    (List.finRange 32).all (fun q => q == 3 ||
      (after (start .v1 0x00221824 [(1, 1), (2, 2)])).reg q == (start .v1 0x00221824 [(1, 1), (2, 2)]).reg q) = true := by decide
/-- A18: funct 0x08 does not jump. -/
theorem test_rtypeOther_no_jump : (after (start .v1 0x00221808 [(1, 0x40)])).pc = 4 := by decide
/-- A11: the immediate is sign-extended. -/
theorem test_addi_sign : seen 2 (start .v2 0x20228000 []) = (0xFFFF8000, 4, .running) := by decide
/-- A13: register 0 keeps what is written to it. -/
theorem test_addi_register_zero : seen 0 (start .v1 0x20000005 []) = (5, 4, .running) := by decide
/-- L2: a negative offset. -/
theorem test_lw_negative : seen 5 (start .v2 0x8C25FFFC [(1, 8)]) = (0x22, 4, .running) := by decide
/-- L7: the address wraps; the loaded word is the LW itself. -/
theorem test_lw_wraps : seen 1 (startBase 0xFFFFFFF0 0x8C010010 []) = (0x8C010010, 4, .running) := by decide
/-- L5: the first index outside memory. -/
theorem test_lw_data_fault : seen 1 (start .v2 0x8C010020 []) = (0, 0, .faultDataOob) := by decide
/-- B4: taken, relative to the next instruction. -/
theorem test_bne_taken : seen 1 (startAt8 .v1 0x1423FFFD [(1, 1), (3, 101)]) = (1, 0, .running) := by decide
/-- B5: not taken. -/
theorem test_bne_not_taken : seen 1 (startAt8 .v1 0x1423FFFD [(1, 101), (3, 101)]) = (101, 12, .running) := by decide
/-- J6: bits 31:28 of `x[rs]`, and only those. -/
theorem test_j_reg_rs : seen 7 (start .v1 0x08E00004 [(7, 0xFFFFFFFF)]) = (0xFFFFFFFF, 0xF0000010, .running) := by decide
/-- J3: under PC_OF_J the register does not matter. -/
theorem test_j_pc_of_j :
    seen 7 ((startAt8 .v1 0x08E00003 [(7, 0x30000000)]).withJTopSource .pcOfJ) = (0x30000000, 0x0000000C, .running) := by decide
/-- H3: the other bits of a HLT word do nothing. -/
theorem test_hlt : seen 3 (start .v1 0xFC221820 [(1, 1), (2, 2)]) = (0, 0, .halted) := by decide
/-- U1: MIPS SW is a no-op here. -/
theorem test_unrecognized : after (start .v1 0xAC220004 [(1, 1), (2, 2)]) = (start .v1 0xAC220004 [(1, 1), (2, 2)]).setPc 4 := by decide
/-- J9 and L9: J in V2 and LW in V1 are no-ops. -/
theorem test_other_variant_no_op :
    after (start .v2 0x08000004 []) = (start .v2 0x08000004 []).setPc 4 ∧
    after (start .v1 0x8C010008 []) = (start .v1 0x8C010008 []).setPc 4 := by decide
/-- F1, second step: the fetch at `4·N`. -/
theorem test_fetch_out_of_bounds : seen 1 ((start .v1 0x20210001 []).setPc 32) = (0, 32, .outOfBounds) := by decide
/-- F3: no step is taken at a terminal status. -/
theorem test_terminal : step ((start .v1 0x20210001 []).endRun .halted) = .next ((start .v1 0x20210001 []).endRun .halted) := rfl
/-- A placed word is the first instruction after reset: J needs V1 and LW needs V2. -/
theorem test_placed_words :
    decodeTableWord 32 0x8C010008 = some (.lw 0 1 8) ∧ decodeTableWord 32 0x08E00003 = some (.j 7 0 3) ∧
    (after (State.reset.withFetchWord 32 0x8C010000)).reg 1 = 0x8C010000 ∧
    (after (State.reset.withFetchWord 32 0x08000004)).pc = 16 := by decide
/-- The address that an LW outside memory forms (R102). -/
theorem test_fault_address : dataFaultAddress (startBase 0x100 0x8C010020 []) = some 0x120 := by decide
/-- R21's last row: an unrecognized word reads the registers of its fields rs and rt, and writes none. -/
theorem test_unrecognized_registers :
    readsRegs (decode .v1 0xAC220004) = [1, 2] ∧ writesReg (decode .v1 0xAC220004) = none := by decide
/-- S5: the diagnostic record of the source's branch example. -/
theorem test_diagnostic_branch :
    diagnostic (startAt8 .v1 0x1423FFFD [(1, 1), (3, 101)]) =
      some ⟨some ⟨0xFFFFFF9C, 1, 101, 0xFFFFFFFD⟩, none, 0⟩ := by decide

/-! ### Witnesses: states and operands that meet the hypotheses of each statement -/

theorem witness_DecodeOfEncodeIsTheInstruction :
    Instr.wf .v1 (.j 7 31 0x8000) = true ∧ Instr.wf .v2 (.lw 31 0 0xFFFF) = true ∧
    Instr.wf .v1 (.rtypeOther 1 2 31 31 0x21) = true ∧ Instr.wf .v2 (.unrecognized 0x02 0x3FFFFFF) = true := by decide

theorem witness_OpcodeAndFunctSelectTheRow :
    opcodeOf 0x00221820 = opcodeOf 0x004327E0 ∧
    (opcodeOf 0x00221820 = 0x00#6 → functOf 0x00221820 = functOf 0x004327E0) := by decide

theorem witness_IgnoredBitsChangeNothing :
    (opcodeOf 0x00221820 = opcodeOf 0x00221FE0 ∧ opcodeOf 0x00221820 = 0x00#6 ∧ rsOf 0x00221820 = rsOf 0x00221FE0 ∧
      rtOf 0x00221820 = rtOf 0x00221FE0 ∧ rdOf 0x00221820 = rdOf 0x00221FE0 ∧ functOf 0x00221820 = functOf 0x00221FE0) ∧
    (opcodeOf 0x08000004 = opcodeOf 0x081F0004 ∧ opcodeOf 0x08000004 = 0x02#6 ∧ rsOf 0x08000004 = rsOf 0x081F0004 ∧
      imm16Of 0x08000004 = imm16Of 0x081F0004) ∧
    (opcodeOf 0xFC000000 = opcodeOf 0xFFFFFFFF ∧ opcodeOf 0xFC000000 = 0x3F#6) ∧
    (opcodeOf 0xAC220004 = opcodeOf 0xAC000000 ∧ opcodeOf 0xAC220004 ∉ recognizedOpcodes .v1) := by decide

theorem witness_ControlTableRows :
    (0x23#6 ∉ recognizedOpcodes .v1) ∧ (0x02#6 ∉ recognizedOpcodes .v2) := by decide

theorem witness_SignExtensionKeepsTheSignedValue :
    0x8000 ≤ (0x8000#16).toNat ∧ (0x7FFF#16).toNat < 0x8000 := by decide

/-- AddWritesTheSum, SubWritesTheDifference, AddiAddsTheImmediate, OtherFunctWritesSomeValue,
LwLoadsTheAddressedWord, BneBranchesWhenRegistersDiffer, JumpCombinesTopBitsAndImmediate, HltOnlyHalts: a
word for each encoding clause. -/
theorem witness_encoding_clauses :
    0x004327E0#32 &&& 0xFC00003F = 0x00000020 ∧ 0x00221822#32 &&& 0xFC00003F = 0x00000022 ∧
    0x2022FFFF#32 &&& 0xFC000000 = 0x20000000 ∧
    (0x00221824#32 &&& 0xFC000000 = 0x00000000 ∧ functOf 0x00221824 ≠ 0x20#6 ∧ functOf 0x00221824 ≠ 0x22#6) ∧
    0x8C25FFFC#32 &&& 0xFC000000 = 0x8C000000 ∧ 0x1423FFFD#32 &&& 0xFC000000 = 0x14000000 ∧
    0x081F0004#32 &&& 0xFC000000 = 0x08000000 ∧ 0xFFFFFFFF#32 &&& 0xFC000000 = 0xFC000000 := by decide

theorem witness_OnlyOtherFunctReadsTheDraw : Instr.mnemonic (.lw 0 1 8) ≠ .RTYPE_OTHER := by decide

/-- L4 and L5: the last word inside memory and the first outside. -/
theorem witness_LwLoadsTheAddressedWord :
    ∃ s : State, s.config.variant = .v2 ∧
      (s.base + (s.reg 0 + sext32 28)).toNat / 4 < s.config.memWords ∧
      s.config.memWords ≤ (s.base + (s.reg 0 + sext32 32)).toNat / 4 :=
  ⟨start .v2 0x8C01001C [], by decide⟩

theorem witness_LowAddressBitsAreDropped :
    ∃ s : State, (s.base + (s.reg 2 + sext32 4)).toNat / 4 = (s.base + (s.reg 0 + sext32 7)).toNat / 4 ∧
      (3#32).toNat / 4 = s.pc.toNat / 4 :=
  ⟨start .v2 0x8C410004 [(2, 1)], by decide⟩

theorem witness_JumpCombinesTopBitsAndImmediate :
    ∃ s t u : State, (s.config.variant = .v1 ∧ s.config.jTopSource = .regRs) ∧
      (t.config.variant = .v1 ∧ t.config.jTopSource = .pcOfJ) ∧
      (u.config.variant = .v1 ∧ u.config.jTopSource = .pcOfJPlus4) :=
  ⟨start .v1 0x08E00003 [], (start .v1 0x08E00003 []).withJTopSource .pcOfJ,
    (start .v1 0x08E00003 []).withJTopSource .pcOfJPlus4, by decide⟩

theorem witness_JumpTargetRange : (0x7FFF#16).toNat < 0x8000 ∧ 0x8000 ≤ (0x8000#16).toNat := by decide

/-- LW's word in V1 and J's word in V2. -/
theorem witness_UnrecognizedOpcodeIsNoOp :
    (opcodeOf 0x8C010008 ≠ 0x00#6 ∧ opcodeOf 0x8C010008 ≠ 0x05#6 ∧ opcodeOf 0x8C010008 ≠ 0x08#6 ∧
      opcodeOf 0x8C010008 ≠ 0x3F#6 ∧ ¬ (opcodeOf 0x8C010008 = 0x02#6 ∧ Variant.v1 = .v1) ∧
      ¬ (opcodeOf 0x8C010008 = 0x23#6 ∧ Variant.v1 = .v2)) ∧
    (opcodeOf 0x08000004 ≠ 0x00#6 ∧ opcodeOf 0x08000004 ≠ 0x05#6 ∧ opcodeOf 0x08000004 ≠ 0x08#6 ∧
      opcodeOf 0x08000004 ≠ 0x3F#6 ∧ ¬ (opcodeOf 0x08000004 = 0x02#6 ∧ Variant.v2 = .v1) ∧
      ¬ (opcodeOf 0x08000004 = 0x23#6 ∧ Variant.v2 = .v2)) := by decide

/-- OtherVariantsOpcodeIsNoOp and IllFormedJAndLwAreNoOps. -/
theorem witness_OtherVariantsOpcodeIsNoOp :
    ∃ s t : State, (s.status = .running ∧ s.pc.toNat / 4 < s.config.memWords ∧ s.config.variant = .v2 ∧
        opcodeOf (s.word (s.pc.toNat / 4)) = 0x02#6) ∧
      (t.status = .running ∧ t.pc.toNat / 4 < t.config.memWords ∧ t.config.variant = .v1 ∧
        opcodeOf (t.word (t.pc.toNat / 4)) = 0x23#6) :=
  ⟨start .v2 0x08000004 [], start .v1 0x8C010008 [], by decide⟩

/-- The last instruction inside memory. -/
theorem witness_StepRunsTheDecodedInstruction :
    ∃ s : State, s.status = .running ∧ s.pc.toNat / 4 < s.config.memWords ∧
      decode s.config.variant (s.word (s.pc.toNat / 4)) = .rtypeOther 0 0 0 2 0x08 ∧
      Instr.wf s.config.variant (.rtypeOther 0 0 0 2 0x08) = true :=
  ⟨(start .v1 0x00221820 []).setPc 28, by decide⟩

theorem witness_OutOfBoundsFetchEndsTheRun :
    ∃ s : State, s.status = .running ∧ s.config.memWords ≤ s.pc.toNat / 4 :=
  ⟨(start .v1 0x00221820 []).setPc 32, by decide⟩

theorem witness_DataOutOfBoundsEndsTheRun :
    ∃ s : State, s.status = .running ∧ s.config.variant = .v2 ∧ s.pc.toNat / 4 < s.config.memWords ∧
      decode .v2 (s.word (s.pc.toNat / 4)) = .lw 0 1 32 ∧
      s.config.memWords ≤ (s.base + (s.reg 0 + sext32 32)).toNat / 4 :=
  ⟨start .v2 0x8C010020 [], by decide⟩

/-- StatusAfterEachCycle, TerminalEventsArePrecise, PcAfterEachCycle and FaultAddressIsObserved: a cycle that
ends in each status, and one that goes on. -/
theorem witness_StatusAfterEachCycle :
    (∃ s t, s.status = .running ∧ step s = .next t ∧ t.status = .outOfBounds) ∧
    (∃ s t, s.status = .running ∧ step s = .next t ∧ t.status = .halted) ∧
    (∃ s t, s.status = .running ∧ step s = .next t ∧ t.status = .faultDataOob) ∧
    (∃ s t, s.status = .running ∧ step s = .next t ∧ t.status = .running) :=
  ⟨⟨_, _, by decide, step_eq_after (s := (start .v1 0x00221820 []).setPc 32) (by decide), by decide⟩,
   ⟨_, _, by decide, step_eq_after (s := start .v1 0xFC000000 []) (by decide), by decide⟩,
   ⟨_, _, by decide, step_eq_after (s := start .v2 0x8C010020 []) (by decide), by decide⟩,
   ⟨_, _, by decide, step_eq_after (s := start .v1 0x00221820 []) (by decide), by decide⟩⟩

theorem witness_DatapathCycleIsTheStep : ∃ s : State, s.status = .running := ⟨start .v2 0x8C010008 [], by decide⟩

theorem witness_JumpIsTwoRules :
    ∃ (f : Fields) (s : State), s.config.variant = .v1 ∧ f.opcode = 0x02#6 :=
  ⟨decodeFields 0x08E00003, start .v1 0x08E00003 [], by decide⟩

theorem witness_TerminalStateNeverChanges : ∃ s : State, s.Ended :=
  ⟨(start .v1 0xFC000000 []).endRun .halted, by decide⟩

/-- RegisterZeroIsOrdinary and AtMostOneRegisterPerCycle. -/
theorem witness_RegisterZeroIsOrdinary :
    ∃ s t : State, step s = .next t ∧ writesReg (decode s.config.variant (s.word (s.pc.toNat / 4))) ≠ some 0 :=
  ⟨_, _, step_eq_after (s := start .v1 0x00221820 [(0, 3)]) (by decide), by decide⟩

/-- Each clause; the unrecognized word is vector U1's. -/
theorem witness_RegisterUseTable :
    (decode .v1 0xAC220004).mnemonic = .UNRECOGNIZED ∧
    (∃ s t : State, exec (.add 1 2 3 0) s = .next t ∧ writesReg (.add 1 2 3 0) ≠ some 4) ∧
    ∃ (s t : State) (regs : Vector Word 32), s.status = .running ∧ Instr.wf s.config.variant (.lw 1 1 0) = true ∧
      exec (.lw 1 1 0) s = .next t ∧
      (Instr.mnemonic (.lw 1 1 0) ≠ .UNRECOGNIZED → ∀ r ∈ readsRegs (.lw 1 1 0), regs[r] = s.reg r) ∧ regs ≠ s.regs :=
  ⟨by decide, ⟨start .v1 0 [], _, rfl, by decide⟩, ⟨start .v2 0 [(1, 12)], _, regsWith [(1, 12), (5, 9)], by decide, by decide, rfl, by decide, by decide⟩⟩

/-- MemoryIsMem0ThroughoutTheRun and ConfigurationNeverChanges: a state reached by one step. -/
theorem witness_MemoryIsMem0ThroughoutTheRun :
    ∃ (c : Config) (mem0 : List Word) (t : State),
      Reaches (State.launch c 0 (Vector.replicate 32 0) mem0) t ∧ 0 < mem0.length ∧ t.pc = 4 :=
  ⟨Config.reset, [0x20210001], after (State.launch Config.reset 0 (Vector.replicate 32 0) [0x20210001]),
    ⟨1, run_succ 0 (step_eq_after (by decide))⟩, by decide, by decide⟩

theorem witness_OnlyLwReadsTheBaseWord :
    (∃ s t : State, exec (.lw 0 1 8) s = .next t) ∧ Instr.mnemonic (.addi 1 2 3) ≠ .LW ∧
    ∃ s : State, s.config.variant = .v1 :=
  ⟨⟨start .v2 0x8C010008 [], _, rfl⟩, by decide, start .v1 0x8C010008 [], by decide⟩

theorem witness_OnlyJReadsJTopSource :
    Instr.mnemonic (.lw 0 1 8) ≠ .J ∧ ∃ s : State, s.config.variant = .v2 :=
  ⟨by decide, start .v2 0x08000004 [], by decide⟩

theorem witness_VariantsAgreeOutsideJAndLw :
    ∃ s : State, opcodeOf (s.word (s.pc.toNat / 4)) ≠ 0x02#6 ∧ opcodeOf (s.word (s.pc.toNat / 4)) ≠ 0x23#6 :=
  ⟨start .v1 0x00221820 [], by decide⟩

/-- Two memories that differ as data and hold the same words. -/
theorem witness_ByteOrderIsUnobservable : ∃ s t : State, SameWords s t ∧ s.mem ≠ t.mem := by
  refine ⟨State.launch Config.reset 0 (Vector.replicate 32 0) [0x20210001],
    State.launch { Config.reset with loaderByteOrder := .big } 0 (Vector.replicate 32 0) [0x20210001],
    ⟨rfl, rfl, rfl, rfl, rfl, rfl, rfl, rfl, fun k => ?_⟩, by decide⟩
  have h (o : ByteOrder) : (Memory.writeWord o [] 0 0x20210001).readWord o k = if k = 0 then 0x20210001 else 0 := by
    rw [readWord_writeWord (by decide)]
    cases o <;> simp [Memory.readWord, Memory.readByte, joinBytes, unlistedByte]
  exact (h .little).trans (h .big).symm

theorem witness_EqualBytesAreEqualMemories :
    ∃ m m' : Memory, Memory.wf m ∧ Memory.wf m' ∧ (∀ a, Memory.readByte m a = Memory.readByte m' a) ∧ m ≠ [] :=
  ⟨[(0, 1), (5, 2)], [(0, 1), (5, 2)], by decide, by decide, fun _ => rfl, by decide⟩

theorem witness_LaunchState :
    ∃ (c : Config) (mem0 : List Word), mem0.length = c.memWords ∧ 0 < mem0.length :=
  ⟨{ Config.reset with memWords := 1 }, [0xFC000000], by decide⟩

/-- The two ends of the range of `N`. -/
theorem witness_LaunchMeetsTheInvariant :
    (∃ (c : Config) (mem0 : List Word), c.Legal ∧ mem0.length ≤ c.memWords ∧ c.memWords = 1 ∧ mem0.length = 1) ∧
    ∃ (c : Config) (mem0 : List Word), c.Legal ∧ mem0.length ≤ c.memWords ∧ c.memWords = 2 ^ 30 :=
  ⟨⟨{ Config.reset with memWords := 1 }, [0xFC000000], by decide⟩, ⟨Config.reset, [0xFC000000], by decide⟩⟩

theorem witness_StepKeepsTheInvariant : ∃ s t : State, s.Inv ∧ step s = .next t ∧ s.mem ≠ [] :=
  ⟨_, _, by decide, step_eq_after (s := start .v1 0x1423FFFD [(1, 1)]) (by decide), by decide⟩

theorem witness_V1RunsNeverFaultOnData :
    ∃ s : State, s.config.variant = .v1 ∧ s.status ≠ .faultDataOob ∧ s.status = .running :=
  ⟨start .v1 0x8C010020 [], by decide⟩

theorem witness_DiagnosticTellsTheCycle :
    (∃ s d, diagnostic s = some d ∧ d.written = some (3, 12)) ∧
    (∃ s d, diagnostic s = some d ∧ d.written = none ∧
      decode s.config.variant (s.word (s.pc.toNat / 4)) = .bne 1 3 0xFFFD) ∧
    (∃ s d, diagnostic s = some d ∧ (decode s.config.variant (s.word (s.pc.toNat / 4))).mnemonic ≠ .BNE) ∧
    ∃ s d t, diagnostic s = some d ∧ step s = .next t ∧ t.status = .faultDataOob :=
  ⟨⟨start .v1 0x00221820 [(1, 5), (2, 7)], ⟨none, some (3, 12), 4⟩, by decide⟩,
   ⟨start .v1 0x1423FFFD [(1, 5), (3, 5)], ⟨some ⟨0, 5, 5, 0xFFFFFFFD⟩, none, 4⟩, by decide⟩,
   ⟨start .v1 0xAC220004 [], ⟨none, none, 4⟩, by decide⟩,
   ⟨start .v2 0x8C010020 [], ⟨none, none, 0⟩, _, by decide, step_eq_after (by decide), by decide⟩⟩

theorem witness_PlacedWordRunsNext : ∃ s : State, s.mem.wf ∧ s.mem ≠ [] := ⟨start .v1 0x00221820 [], by decide⟩

end Sys2Proof.Tests
end

/-! ## Scope: the invariant, the free inputs of a step, and totality -/

namespace Sys2Proof.Machine

/-! ### Aligned addresses (R25) -/

/-- Sums of multiples of 4 are multiples of 4, also where they wrap modulo 2^32. -/
theorem toNat_add_mod_four {a b : Word} (ha : a.toNat % 4 = 0) (hb : b.toNat % 4 = 0) :
    (a + b).toNat % 4 = 0 := by
  rw [BitVec.toNat_add]
  omega

theorem toNat_add_four_mod_four {a : Word} (h : a.toNat % 4 = 0) : (a + 4).toNat % 4 = 0 :=
  toNat_add_mod_four h rfl

/-- A word index scaled to bytes is a multiple of 4. -/
theorem toNat_shiftLeft_two_mod_four (a : Word) : (a <<< 2).toNat % 4 = 0 := by
  rw [BitVec.toNat_shiftLeft, Nat.shiftLeft_eq]
  omega

/-- A branch keeps an aligned `pc` aligned (R97). -/
theorem branchTarget_mod_four {a : Word} (h : a.toNat % 4 = 0) (imm : Word) :
    (branchTarget a imm).toNat % 4 = 0 :=
  toNat_add_mod_four (toNat_add_four_mod_four h) (toNat_shiftLeft_two_mod_four imm)

/-- The direct-jump rule gives an aligned address, whatever supplies the top bits (R87). -/
theorem directTarget_mod_four (top imm : Word) : (directTarget top imm).toNat % 4 = 0 := by
  have hi : (imm <<< 2).toNat % 2 ^ 2 = 0 := toNat_shiftLeft_two_mod_four imm
  have ht : (top &&& 0xF0000000#32).toNat % 2 ^ 2 = 0 := by
    rw [BitVec.toNat_and, Nat.and_mod_two_pow]
    simp
  rw [directTarget, BitVec.toNat_or, show 4 = 2 ^ 2 from rfl, Nat.or_mod_two_pow, ht, hi]
  rfl

/-! ### What an instruction and a step do to each part of the state -/

/-- Every instruction has a meaning: `exec` neither faults nor refuses (R71, R72, R101). -/
theorem exec_total (i : Instr) (s : State) : ∃ t, exec i s = .next t := by
  cases i with
  | add rs rt rd g => exact ⟨_, rfl⟩
  | sub rs rt rd g => exact ⟨_, rfl⟩
  | rtypeOther rs rt rd g funct => exact ⟨_, rfl⟩
  | addi rs rt imm => exact ⟨_, rfl⟩
  | bne rs rt imm =>
    simp only [exec, execBne]
    split
    · exact ⟨_, rfl⟩
    · exact ⟨_, rfl⟩
  | j rs g imm =>
    simp only [exec, execJ]
    split
    · exact ⟨_, rfl⟩
    · exact ⟨_, rfl⟩
  | lw rs rt imm =>
    simp only [exec, execLw]
    split
    · exact ⟨_, rfl⟩
    · exact ⟨_, rfl⟩
  | hlt g => exact ⟨_, rfl⟩
  | unrecognized op g => exact ⟨_, rfl⟩

/-- No instruction changes the configuration, the base word or memory (R27, R39, R120). -/
theorem exec_keeps_config_base_mem {i : Instr} {s t : State} (h : exec i s = .next t) :
    t.config = s.config ∧ t.base = s.base ∧ t.mem = s.mem := by
  obtain ⟨r, v, rfl⟩ | ⟨r, v, rfl⟩ | ⟨a, rfl⟩ | ⟨st, -, rfl⟩ := exec_next_cases h
  · exact ⟨rfl, rfl, rfl⟩
  · exact ⟨rfl, rfl, rfl⟩
  · exact ⟨rfl, rfl, rfl⟩
  · exact ⟨rfl, rfl, rfl⟩

/-- The ways an instruction leaves `pc` (R24): kept, advanced, or set to the target of a branch or a jump. -/
theorem exec_pc_cases {i : Instr} {s t : State} (h : exec i s = .next t) :
    t.pc = s.pc ∨ t.pc = s.pc + 4 ∨ (∃ imm, t.pc = branchTarget s.pc imm) ∨
      (∃ top imm, t.pc = directTarget top imm) := by
  cases i with
  | add rs rt rd g => cases h; exact .inr (.inl rfl)
  | sub rs rt rd g => cases h; exact .inr (.inl rfl)
  | rtypeOther rs rt rd g funct => cases h; exact .inr (.inl rfl)
  | addi rs rt imm => cases h; exact .inr (.inl rfl)
  | bne rs rt imm =>
    simp only [exec, execBne] at h
    split at h <;> cases h
    · exact .inr (.inr (.inl ⟨_, rfl⟩))
    · exact .inr (.inl rfl)
  | j rs g imm =>
    simp only [exec, execJ] at h
    split at h <;> cases h
    · exact .inr (.inr (.inr ⟨_, _, rfl⟩))
    · exact .inr (.inl rfl)
  | lw rs rt imm =>
    simp only [exec, execLw] at h
    split at h <;> cases h
    · exact .inr (.inl rfl)
    · simp only [loadWord]
      split
      · exact .inr (.inl rfl)
      · exact .inl rfl
  | hlt g => cases h; exact .inl rfl
  | unrecognized op g => cases h; exact .inr (.inl rfl)

/-- An instruction keeps an aligned `pc` aligned (R25). -/
theorem exec_keeps_alignment {i : Instr} {s t : State} (h : exec i s = .next t)
    (hs : s.pc.toNat % 4 = 0) : t.pc.toNat % 4 = 0 := by
  obtain hpc | hpc | ⟨imm, hpc⟩ | ⟨top, imm, hpc⟩ := exec_pc_cases h
  · rw [hpc]; exact hs
  · rw [hpc]; exact toNat_add_four_mod_four hs
  · rw [hpc]; exact branchTarget_mod_four hs imm
  · rw [hpc]; exact directTarget_mod_four top imm

/-- The next state of a step is the state itself, the state with the run ended, or what the decoded
instruction answers. -/
theorem step_next_cases {s t : State} (h : step s = .next t) :
    t = s ∨ t = s.endRun .outOfBounds ∨
      exec (decode s.config.variant (s.word (s.pc.toNat / 4))) s = .next t := by
  obtain ⟨-, hstep⟩ | ⟨-, -, hstep⟩ | ⟨-, -, hstep⟩ := step_cases s
  · rw [hstep] at h; cases h; exact .inl rfl
  · rw [hstep] at h; cases h; exact .inr (.inl rfl)
  · exact .inr (.inr (hstep ▸ h))

/-- No step changes the configuration, the base word or memory (R27, R39, R120). -/
theorem step_keeps_config_base_mem {s t : State} (h : step s = .next t) :
    t.config = s.config ∧ t.base = s.base ∧ t.mem = s.mem := by
  obtain rfl | rfl | hexec := step_next_cases h
  · exact ⟨rfl, rfl, rfl⟩
  · exact ⟨rfl, rfl, rfl⟩
  · exact exec_keeps_config_base_mem hexec

theorem step_keeps_alignment {s t : State} (h : step s = .next t) (hs : s.pc.toNat % 4 = 0) :
    t.pc.toNat % 4 = 0 := by
  obtain rfl | rfl | hexec := step_next_cases h
  · exact hs
  · exact hs
  · exact exec_keeps_alignment hexec hs

/-- Settles O53: no step changes the configuration or memory, and each keeps `pc` aligned. -/
theorem stepKeepsTheInvariant : Obligations.StepKeepsTheInvariant := by
  rintro s t ⟨hlegal, hpc, hwf, hwithin⟩ h
  obtain ⟨hconfig, -, hmem⟩ := step_keeps_config_base_mem h
  rw [State.Inv, hconfig, hmem]
  exact ⟨hlegal, step_keeps_alignment h hpc, hwf, hwithin⟩

/-! ### The invariant at the start of a run -/

/-- The loader's writes of an image that fits keep memory within its words. -/
theorem within_writeWords {m : Memory} {n : Nat} (hm : m.Within n) (o : ByteOrder) (k : Nat)
    (ws : List Word) (h : k + ws.length ≤ n) : (Memory.writeWords o m k ws).Within n := by
  induction ws generalizing m k with
  | nil => exact hm
  | cons w ws ih =>
    rw [List.length_cons] at h
    exact ih (within_writeWord hm (by omega) o w) (k + 1) (by omega)

/-- Settles O52: the loader writes into the empty memory, and `pc` is 0. -/
theorem launchMeetsTheInvariant : Obligations.LaunchMeetsTheInvariant := by
  intro config lwBase regs0 mem0 hlegal hfits
  have hwf : (Memory.writeWords config.loaderByteOrder [] 0 mem0).wf :=
    wf_writeWords (by simp [Memory.wf]) _ _ _
  have hwithin : (Memory.writeWords config.loaderByteOrder [] 0 mem0).Within config.memWords :=
    within_writeWords (by simp [Memory.Within]) _ _ _ (by omega)
  exact ⟨hlegal, rfl, hwf, hwithin⟩

/-- Reset is a launch with an empty image (log entries 2 to 6). -/
theorem reset_eq_launch : State.reset = State.launch Config.reset 0 (Vector.replicate 32 0) [] := rfl

/-- Settles O51: reset is a launch. -/
theorem resetMeetsTheInvariant : Obligations.ResetMeetsTheInvariant := by
  unfold Obligations.ResetMeetsTheInvariant
  rw [reset_eq_launch]
  exact launchMeetsTheInvariant _ _ _ _ (by decide) (by decide)

/-! ### Totality and terminal states -/

/-- Settles O36: the terminal statuses and a fetch outside memory answer a state, and so does every
instruction. -/
theorem everyStepAnswersANextState : Obligations.EveryStepAnswersANextState := by
  intro s
  obtain ⟨-, hstep⟩ | ⟨-, -, hstep⟩ | ⟨-, -, hstep⟩ := step_cases s
  · exact ⟨_, hstep⟩
  · exact ⟨_, hstep⟩
  · rw [hstep]; exact exec_total _ s

/-- Settles O35, by induction on the number of steps. -/
theorem terminalStateNeverChanges : Obligations.TerminalStateNeverChanges := by
  intro s k hended
  induction k with
  | zero => rfl
  | succ k ih => rw [run_succ k (step_of_not_running hended), ih]

/-! ### Changes of the state that an instruction does not see -/

/-- A change of the state that touches no register, `pc`, `status` or word of memory, and that commutes with
the operations an instruction is made of. What it may touch is seen by J, LW and R-type of another funct alone:
the variant, JTopSource, the base word and the count of draws. -/
structure KeepsOperands (f : State → State) : Prop where
  reg : ∀ s r, (f s).reg r = s.reg r
  pc : ∀ s, (f s).pc = s.pc
  status : ∀ s, (f s).status = s.status
  memRead : ∀ s a, (f s).memRead a = s.memRead a
  setReg : ∀ s r v, f (s.setReg r v) = (f s).setReg r v
  setPc : ∀ s a, f (s.setPc a) = (f s).setPc a
  endRun : ∀ s st, f (s.endRun st) = (f s).endRun st

theorem keepsOperands_withDraws (n : Nat) : KeepsOperands (State.withDraws n) :=
  ⟨fun _ _ => rfl, fun _ => rfl, fun _ => rfl, fun _ _ => rfl, fun _ _ _ => rfl, fun _ _ => rfl, fun _ _ => rfl⟩

theorem keepsOperands_withBase (b : Word) : KeepsOperands (State.withBase b) :=
  ⟨fun _ _ => rfl, fun _ => rfl, fun _ => rfl, fun _ _ => rfl, fun _ _ _ => rfl, fun _ _ => rfl, fun _ _ => rfl⟩

theorem keepsOperands_withVariant (v : Variant) : KeepsOperands (State.withVariant v) :=
  ⟨fun _ _ => rfl, fun _ => rfl, fun _ => rfl, fun _ _ => rfl, fun _ _ _ => rfl, fun _ _ => rfl, fun _ _ => rfl⟩

theorem keepsOperands_withJTopSource (j : JTopSource) : KeepsOperands (State.withJTopSource j) :=
  ⟨fun _ _ => rfl, fun _ => rfl, fun _ => rfl, fun _ _ => rfl, fun _ _ _ => rfl, fun _ _ => rfl, fun _ _ => rfl⟩

namespace KeepsOperands

variable {f : State → State} (hf : KeepsOperands f)
include hf

theorem fetch_eq (s : State) : (f s).fetch = s.fetch :=
  (congrArg (f s).memRead (hf.pc s)).trans (hf.memRead s s.pc)

theorem advance_comm (s : State) : f s.advance = (f s).advance := by
  rw [State.advance, hf.setPc, State.advance, hf.pc]

theorem writeBack_comm (s : State) (r : RegIdx) (v : Word) : f (s.writeBack r v) = (f s).writeBack r v := by
  rw [State.writeBack, hf.advance_comm, hf.setReg, State.writeBack]

/-- A load reads the base word beside its operands. -/
theorem loadWord_comm {s : State} (hb : (f s).base = s.base) (rs rt : RegIdx) (imm16 : BitVec 16) :
    loadWord rs rt imm16 (f s) = f (loadWord rs rt imm16 s) := by
  have ha : lwAddress rs imm16 (f s) = lwAddress rs imm16 s := by
    simp only [lwAddress, alu, hb, hf.reg]
  simp only [loadWord, ha, hf.memRead]
  split
  · exact (hf.writeBack_comm s rt _).symm
  · exact (hf.endRun s _).symm

/-- Such a change commutes with every instruction, given that it leaves what J, LW and R-type of another funct
read beside their operands. -/
theorem exec_comm {i : Instr} {s : State}
    (hj : i.mnemonic = .J →
      (f s).config.variant = s.config.variant ∧ (f s).config.jTopSource = s.config.jTopSource)
    (hlw : i.mnemonic = .LW → (f s).config.variant = s.config.variant ∧ (f s).base = s.base)
    (hdraw : i.mnemonic = .RTYPE_OTHER →
      (f s).draws = s.draws ∧ ∀ t : State, f t.takeDraw = (f t).takeDraw) :
    exec i (f s) = mapNext f (exec i s) := by
  cases i with
  | add rs rt rd g => simp only [exec, execAdd, mapNext, alu, hf.reg, hf.writeBack_comm]
  | sub rs rt rd g => simp only [exec, execSub, mapNext, alu, hf.reg, hf.writeBack_comm]
  | rtypeOther rs rt rd g funct =>
    obtain ⟨hd, ht⟩ := hdraw rfl
    simp only [exec, execRtypeOther, mapNext, alu, State.draw, hd, ht, hf.writeBack_comm]
  | addi rs rt imm => simp only [exec, execAddi, mapNext, alu, hf.reg, hf.writeBack_comm]
  | bne rs rt imm =>
    simp only [exec, execBne, branchTaken_sub, hf.reg, hf.pc]
    split
    · simp only [mapNext, hf.setPc]
    · simp only [mapNext, hf.advance_comm]
  | j rs g imm =>
    obtain ⟨hv, ht⟩ := hj rfl
    simp only [exec, execJ, hv]
    split
    · simp only [mapNext, directJump, registerJump, setPc_config, setPc_pc, ht, hf.setPc, hf.reg, hf.pc]
    · simp only [mapNext, hf.advance_comm]
  | lw rs rt imm =>
    obtain ⟨hv, hb⟩ := hlw rfl
    simp only [exec, execLw, hv]
    split
    · simp only [mapNext, hf.advance_comm]
    · simp only [mapNext, hf.loadWord_comm hb]
  | hlt g => simp only [exec, execHlt, mapNext, hf.endRun]
  | unrecognized op g => simp only [exec, execUnrecognized, mapNext, hf.advance_comm]

/-- Such a change commutes with a step when the word at `pc` decodes alike before and after it, and it commutes
with the instruction. -/
theorem step_comm {s : State}
    (hdecode : decode (f s).config.variant (s.word (s.pc.toNat / 4)) =
      decode s.config.variant (s.word (s.pc.toNat / 4)))
    (hexec : exec (decode s.config.variant (s.word (s.pc.toNat / 4))) (f s) =
      mapNext f (exec (decode s.config.variant (s.word (s.pc.toNat / 4))) s)) :
    step (f s) = mapNext f (step s) := by
  by_cases hs : s.status = .running
  · have hfs : (f s).status = .running := (hf.status s).trans hs
    rcases fetch_cases s with ⟨-, hw⟩ | ⟨-, hw⟩
    · rw [step_of_fetch hs hw, step_of_fetch hfs ((hf.fetch_eq s).trans hw), hdecode, hexec]
    · simp only [step, hs, hfs, hf.fetch_eq, hw, mapNext, hf.endRun]
  · rw [step_of_not_running hs, step_of_not_running (by rwa [hf.status])]
    rfl

end KeepsOperands

/-! ### Which words are J and LW (R69) -/

/-- No R-type word is J or LW. -/
theorem decodeRType_mnemonic_ne (w : Word) :
    (decodeRType w).mnemonic ≠ .J ∧ (decodeRType w).mnemonic ≠ .LW := by
  unfold decodeRType
  split
  · exact ⟨nofun, nofun⟩
  · split
    · exact ⟨nofun, nofun⟩
    · exact ⟨nofun, nofun⟩

/-- A word decodes to J only with opcode 0x02 in V1, and to LW only with opcode 0x23 in V2. -/
theorem decode_mnemonic_J_LW (v : Variant) (w : Word) :
    ((decode v w).mnemonic = .J → opcodeOf w = 0x02#6 ∧ v = .v1) ∧
      ((decode v w).mnemonic = .LW → opcodeOf w = 0x23#6 ∧ v = .v2) := by
  unfold decode
  split_ifs with h0 h8 h5 hj hlw hhlt
  · obtain ⟨hJ, hLW⟩ := decodeRType_mnemonic_ne w
    exact ⟨fun h => absurd h hJ, fun h => absurd h hLW⟩
  · exact ⟨nofun, nofun⟩
  · exact ⟨nofun, nofun⟩
  · exact ⟨fun _ => hj, nofun⟩
  · exact ⟨nofun, fun _ => hlw⟩
  · exact ⟨nofun, nofun⟩
  · exact ⟨nofun, nofun⟩

/-- Outside the opcodes of J and LW a word decodes alike in every variant. -/
theorem decode_variant_irrelevant {w : Word} (hj : opcodeOf w ≠ 0x02#6) (hlw : opcodeOf w ≠ 0x23#6)
    (v v' : Variant) : decode v w = decode v' w := by
  simp only [decode, hj, hlw, false_and, if_false]

/-! ### Who reads the draw, JTopSource and the variant -/

/-- Settles O17: the write-back of R-type of another funct holds the draw; for every other instruction the count
is a change it does not see. -/
theorem onlyOtherFunctReadsTheDraw : Obligations.OnlyOtherFunctReadsTheDraw := by
  constructor
  · intro rs rt rd g funct s
    exact ⟨_, rfl, by rw [reg_takeDraw, reg_writeBack, if_pos rfl]; rfl, rfl⟩
  · intro i n s hi
    exact (keepsOperands_withDraws n).exec_comm (fun _ => ⟨rfl, rfl⟩) (fun _ => ⟨rfl, rfl⟩)
      (fun h => absurd h hi)

/-- Every instruction but J commutes with a change of JTopSource (R87). -/
theorem exec_withJTopSource {i : Instr} (j : JTopSource) (s : State) (hi : i.mnemonic ≠ .J) :
    exec i (s.withJTopSource j) = mapNext (State.withJTopSource j) (exec i s) :=
  (keepsOperands_withJTopSource j).exec_comm (fun h => absurd h hi) (fun _ => ⟨rfl, rfl⟩)
    (fun _ => ⟨rfl, fun _ => rfl⟩)

/-- Settles O44: in V2 no word decodes to J. -/
theorem onlyJReadsJTopSource : Obligations.OnlyJReadsJTopSource := by
  constructor
  · intro i j s hi
    exact exec_withJTopSource j s hi
  · intro j s hv
    refine (keepsOperands_withJTopSource j).step_comm rfl (exec_withJTopSource j s fun hJ => ?_)
    have hv1 := ((decode_mnemonic_J_LW _ _).1 hJ).2
    rw [hv] at hv1
    cases hv1

/-- Settles O45: such a word decodes alike in both variants, and to neither J nor LW, the only instructions that
read the variant. -/
theorem variantsAgreeOutsideJAndLw : Obligations.VariantsAgreeOutsideJAndLw := by
  intro v s hj hlw
  obtain ⟨hJ, hLW⟩ := decode_mnemonic_J_LW s.config.variant (s.word (s.pc.toNat / 4))
  refine (keepsOperands_withVariant v).step_comm (decode_variant_irrelevant hj hlw _ _) ?_
  exact (keepsOperands_withVariant v).exec_comm (fun h => absurd (hJ h).1 hj) (fun h => absurd (hLW h).1 hlw)
    (fun _ => ⟨rfl, fun _ => rfl⟩)

/-! ### The fields of a word and the immediate -/

/-- A bit field of a word, said by division and remainder. -/
theorem toNat_field (w : Word) (lo len : Nat) :
    (w.extractLsb' lo len).toNat = w.toNat / 2 ^ lo % 2 ^ len := by
  rw [BitVec.extractLsb'_toNat, Nat.shiftRight_eq_div_pow]

/-- Settles O2: each field is a bit field, and nothing lies above `opcode` and below `funct` and `imm16`. -/
theorem fieldsAreBitSlices : Obligations.FieldsAreBitSlices := by
  intro w
  refine ⟨?_, toNat_field w 21 5, toNat_field w 16 5, toNat_field w 11 5, ?_, ?_⟩
  · rw [opcodeOf, toNat_field]
    omega
  · rw [functOf, toNat_field]
    omega
  · rw [imm16Of, toNat_field]
    omega

/-- Bit 15 of an immediate is set exactly from 0x8000 on. -/
theorem getLsbD_15_iff (v : BitVec 16) : v.getLsbD 15 = true ↔ 0x8000 ≤ v.toNat := by
  have h : v.getLsbD 15 = decide (0x8000 ≤ v.toNat) :=
    (BitVec.msb_eq_getLsbD_last v).symm.trans (BitVec.msb_eq_decide v)
  rw [h, decide_eq_true_iff]

/-- Settles O12: the sign extension of the library keeps the signed value, and bit 15 selects the clause. -/
theorem signExtensionKeepsTheSignedValue : Obligations.SignExtensionKeepsTheSignedValue := by
  intro v
  refine ⟨?_, fun h => ?_, fun h => ?_⟩
  · rw [sext32_eq_signExtend, BitVec.toInt_signExtend_of_le (by decide)]
  · rw [sext32, if_pos ((getLsbD_15_iff v).2 h), zext32]
  · rw [sext32, if_neg (mt (getLsbD_15_iff v).1 (Nat.not_le.2 h)), BitVec.toNat_setWidth]
    omega

end Sys2Proof.Machine

/-! ## State: registers, the base word, memory and the cycle's observations -/

namespace Sys2Proof.Machine

/-! ### The loader's image word by word, and the canonical form of memory -/

/-- Reading any word after the loader's writes: the image from word index `k` on, and the old word elsewhere. -/
theorem readWord_writeWords {m : Memory} (hm : m.wf) (o : ByteOrder) (k j : Nat) (ws : List Word) :
    (Memory.writeWords o m k ws).readWord o j =
      if k ≤ j then ws.getD (j - k) (m.readWord o j) else m.readWord o j := by
  induction ws generalizing m k with
  | nil => simp [Memory.writeWords]
  | cons w ws ih =>
    rw [Memory.writeWords, ih (wf_writeWord hm o k w), readWord_writeWord hm]
    rcases Nat.lt_trichotomy j k with hlt | rfl | hgt
    · rw [if_neg (by omega), if_neg (by omega), if_neg (by omega)]
    · simp
    · rw [if_pos (by omega), if_neg (by omega), if_pos (by omega), show j - k = j - (k + 1) + 1 by omega,
        List.getD_cons_succ]

/-- A word of the empty memory is 0 in either byte order (log entry 5). -/
theorem readWord_nil (o : ByteOrder) (k : Nat) : Memory.readWord o [] k = 0 := by
  have hjoin : joinBytes o unlistedByte unlistedByte unlistedByte unlistedByte = 0 := by
    cases o <;> decide
  exact hjoin

/-- The words of a launch: its image, and beyond it those of the empty memory. -/
theorem word_launch (config : Config) (lwBase : Word) (regs0 : Vector Word 32) (mem0 : List Word) (k : Nat) :
    (State.launch config lwBase regs0 mem0).word k = mem0.getD k 0 := by
  have hword := readWord_writeWords (m := []) (by simp [Memory.wf]) config.loaderByteOrder 0 k mem0
  rwa [if_pos (Nat.zero_le k), Nat.sub_zero, readWord_nil] at hword

/-- Settles O47: each launch holds the words of the image, whatever the order of their bytes. -/
theorem launchHoldsTheSameWordsInEitherByteOrder :
    Obligations.LaunchHoldsTheSameWordsInEitherByteOrder := by
  intro config o lwBase regs0 mem0
  exact ⟨rfl, rfl, rfl, rfl, rfl, rfl, rfl, rfl, fun k => by rw [word_launch, word_launch]⟩

/-- Settles O49: all but the memory stands in the launch as given. -/
theorem launchState : Obligations.LaunchState := by
  intro config lwBase regs0 mem0 _
  refine ⟨rfl, rfl, fun _ => rfl, fun k hk => ?_, rfl⟩
  rw [word_launch, List.getD_eq_getElem _ _ hk]

/-- The entries of a canonical memory are its bytes that do not read as unlisted. -/
theorem mem_iff_readByte {m : Memory} (hm : m.wf) (a : Nat) (b : Byte) :
    (a, b) ∈ m ↔ m.readByte a = b ∧ b ≠ unlistedByte := by
  induction m with
  | nil => simpa [Memory.readByte] using fun h : unlistedByte = b => h.symm
  | cons c m ih =>
    obtain ⟨a', b'⟩ := c
    obtain ⟨hlow, hs⟩ := List.pairwise_cons.1 hm.1
    have hlisted : b' ≠ unlistedByte := hm.2 (a', b') (by simp)
    have htail := ih ⟨hs, fun d hd => hm.2 d (by simp [hd])⟩
    by_cases ha : a = a'
    · subst ha
      have hnot : (a, b) ∉ m := fun h => Nat.lt_irrefl a (hlow _ h)
      simp only [List.mem_cons, hnot, or_false, Prod.mk.injEq, true_and, Memory.readByte, if_true]
      exact ⟨fun h => ⟨h.symm, h ▸ hlisted⟩, fun h => h.1.symm⟩
    · simp only [List.mem_cons, Prod.mk.injEq, ha, false_and, false_or, Memory.readByte, if_false, htail]

/-- Settles O48: memories that read the same list the same entries, each at strictly rising addresses. -/
theorem equalBytesAreEqualMemories : Obligations.EqualBytesAreEqualMemories := by
  intro m m' hm hm' hread
  have hirrefl : Std.Irrefl fun c d : Host.Cell => c.1 < d.1 := ⟨fun c => Nat.lt_irrefl c.1⟩
  have hantisymm : Std.Antisymm fun c d : Host.Cell => c.1 < d.1 :=
    ⟨fun c d h h' => absurd h' (Nat.lt_asymm h)⟩
  refine hm.1.eq_of_mem_iff hm'.1 fun ⟨a, b⟩ => ?_
  rw [mem_iff_readByte hm, mem_iff_readByte hm', hread]

/-! ### The word the loader places (log entry 10) -/

theorem tableWord_toNat (w : Word) : tableWord 32 w.toNat = w := by
  rw [tableWord, Nat.mod_eq_of_lt w.isLt, BitVec.ofNat_toNat, BitVec.setWidth_eq]

/-- The placed word stands where the next cycle fetches, and memory reaches it. -/
theorem fetch_withFetchWord {s : State} (hm : s.mem.wf) (w : Word) :
    (s.withFetchWord 32 w.toNat).fetch = some w := by
  have hbound : s.pc.toNat / 4 < max s.config.memWords (s.pc.toNat / 4 + 1) := by omega
  have hword : (s.withFetchWord 32 w.toNat).word (s.pc.toNat / 4) = w := by
    simp only [State.word, State.withFetchWord, readWord_writeWord hm, if_true, tableWord_toNat]
  exact (if_pos hbound).trans (congrArg some hword)

/-- Settles O57: the next step fetches the placed word, in the variant that has its row. -/
theorem placedWordRunsNext : Obligations.PlacedWordRunsNext := by
  intro s w hm
  rw [step_of_fetch rfl (fetch_withFetchWord hm w)]
  simp only [State.withFetchWord, tableWord_toNat]

/-! ### The variant of J and LW (R69), and the base word -/

theorem variant_of_decode_j {v : Variant} {w : Word} (h : (decode v w).mnemonic = .J) : v = .v1 :=
  ((decode_mnemonic_J_LW v w).1 h).2

theorem variant_of_decode_lw {v : Variant} {w : Word} (h : (decode v w).mnemonic = .LW) : v = .v2 :=
  ((decode_mnemonic_J_LW v w).2 h).2

/-- Every instruction but LW commutes with a change of the base word (R27). -/
theorem exec_withBase {i : Instr} (b : Word) (s : State) (hi : i.mnemonic ≠ .LW) :
    exec i (s.withBase b) = mapNext (State.withBase b) (exec i s) :=
  (keepsOperands_withBase b).exec_comm (fun _ => ⟨rfl, rfl⟩) (fun h => absurd h hi)
    (fun _ => ⟨rfl, fun _ => rfl⟩)

/-- Settles O43: no step changes the base word, and in V1 no word decodes to LW. -/
theorem onlyLwReadsTheBaseWord : Obligations.OnlyLwReadsTheBaseWord := by
  refine ⟨fun i s t h => ?_, fun config lwBase regs0 mem0 t h => ?_, fun i b s hi => exec_withBase b s hi,
    fun b s hv => ?_⟩
  · obtain ⟨-, hbase, -⟩ := exec_keeps_config_base_mem h
    exact hbase
  · refine reaches_induction (P := fun u => u.base = lwBase) (fun u u' hu hstep => ?_) rfl h
    obtain ⟨-, hbase, -⟩ := step_keeps_config_base_mem hstep
    exact hbase.trans hu
  · refine (keepsOperands_withBase b).step_comm rfl (exec_withBase b s fun hLW => ?_)
    have hv2 := variant_of_decode_lw hLW
    rw [hv] at hv2
    cases hv2

/-! ### What an instruction and a step write (R21, R22) -/

/-- `exec` answers `next t` in one of two ways: the register the table names gets the value the report tells, or
no register changes, which with an instruction that names one is LW's, by a data fault or in V1. -/
theorem exec_regs_cases {i : Instr} {s t : State} (h : exec i s = .next t) :
    (∃ r v, writesReg i = some r ∧ writeReport i s = some (r, v) ∧ t.status = s.status ∧ WritesReg r v s t) ∨
      (writeReport i s = none ∧ KeepsRegs s t ∧
        (writesReg i = none ∨ t.status = .faultDataOob ∨ (i.mnemonic = .LW ∧ s.config.variant = .v1))) := by
  cases i with
  | add rs rt rd g => cases h; exact .inl ⟨_, _, rfl, rfl, rfl, (writesAndAdvances_writeBack s _ _).written⟩
  | sub rs rt rd g => cases h; exact .inl ⟨_, _, rfl, rfl, rfl, (writesAndAdvances_writeBack s _ _).written⟩
  | rtypeOther rs rt rd g funct =>
    cases h; exact .inl ⟨_, _, rfl, rfl, rfl, (writesAndAdvances_writeBack s _ _).written⟩
  | addi rs rt imm => cases h; exact .inl ⟨_, _, rfl, rfl, rfl, (writesAndAdvances_writeBack s _ _).written⟩
  | bne rs rt imm =>
    simp only [exec, execBne] at h
    split at h <;> cases h
    · exact .inr ⟨rfl, fun _ => rfl, .inl rfl⟩
    · exact .inr ⟨rfl, fun _ => rfl, .inl rfl⟩
  | j rs g imm =>
    simp only [exec, execJ] at h
    split at h <;> cases h
    · exact .inr ⟨rfl, fun _ => rfl, .inl rfl⟩
    · exact .inr ⟨rfl, fun _ => rfl, .inl rfl⟩
  | lw rs rt imm =>
    simp only [exec, execLw] at h
    split at h <;> cases h
    next hv => exact .inr ⟨by simp [writeReport, hv], fun _ => rfl, .inr (.inr ⟨rfl, hv⟩)⟩
    next hv =>
      simp only [loadWord, writeReport, hv, if_true]
      cases s.memRead (lwAddress rs imm s) with
      | some w => exact .inl ⟨rt, w, rfl, rfl, rfl, (writesAndAdvances_writeBack s rt w).written⟩
      | none => exact .inr ⟨rfl, fun _ => rfl, .inr (.inl rfl)⟩
  | hlt g => cases h; exact .inr ⟨rfl, fun _ => rfl, .inl rfl⟩
  | unrecognized op g => cases h; exact .inr ⟨rfl, fun _ => rfl, .inl rfl⟩

/-- An instruction writes no register but the one the table names (R21). -/
theorem exec_keeps_reg {i : Instr} {s t : State} (h : exec i s = .next t) {q : RegIdx}
    (hq : writesReg i ≠ some q) : t.reg q = s.reg q := by
  obtain ⟨r, v, hr, -, -, -, hkeep⟩ | ⟨-, hkeep, -⟩ := exec_regs_cases h
  · exact hkeep q fun hqr => hq (hqr ▸ hr)
  · exact hkeep q

/-- Settles O37: an ADDI writes register 0 like any other, and a step that ends the run writes none. -/
theorem registerZeroIsOrdinary : Obligations.RegisterZeroIsOrdinary := by
  constructor
  · intro rs imm16 s
    exact ⟨_, rfl, (writesAndAdvances_writeBack s 0 _).written.1⟩
  · intro s t h hzero
    obtain rfl | rfl | hexec := step_next_cases h
    · rfl
    · rfl
    · exact exec_keeps_reg hexec hzero

/-- One register written, said of the whole register file. -/
theorem regs_eq_set_of_writesReg {s t : State} {r : RegIdx} {v : Word} (h : WritesReg r v s t) :
    t.regs = s.regs.set r v := by
  refine regs_ext (t := s.setReg r v) fun q => ?_
  by_cases hq : q = r
  · rw [hq, h.1, reg_setReg_same]
  · rw [h.2 q hq, reg_setReg_of_ne s r v hq]

/-- Settles O40: where a step writes no register, the entry set is register 0 with its own value. -/
theorem atMostOneRegisterPerCycle : Obligations.AtMostOneRegisterPerCycle := by
  intro s t h
  have hnone (hkeep : KeepsRegs s t) : t.regs = s.regs.set (0 : RegIdx) (s.reg 0) :=
    regs_eq_set_of_writesReg ⟨hkeep 0, fun q _ => hkeep q⟩
  obtain rfl | rfl | hexec := step_next_cases h
  · exact ⟨_, _, hnone fun _ => rfl⟩
  · exact ⟨_, _, hnone fun _ => rfl⟩
  · obtain ⟨r, v, -, -, -, hwrite⟩ | ⟨-, hkeep, -⟩ := exec_regs_cases hexec
    · exact ⟨r, v, regs_eq_set_of_writesReg hwrite⟩
    · exact ⟨_, _, hnone hkeep⟩

/-! ### J and LW in the variant that has them -/

/-- A J of V1 only sets `pc`, to the direct target under the register rule's `pc` (R98). -/
theorem exec_j_of_v1 {s : State} (hv : s.config.variant = .v1) (rs : RegIdx) (g : BitVec 5) (imm16 : BitVec 16) :
    exec (.j rs g imm16) s =
      .next (s.setPc (directTarget (jumpTop s.config.jTopSource s.pc (s.reg rs)) (sext32 imm16))) := by
  simp only [exec, execJ, hv]
  rfl

theorem exec_lw_of_v2 {s : State} (hv : s.config.variant = .v2) (rs rt : RegIdx) (imm16 : BitVec 16) :
    exec (.lw rs rt imm16) s = .next (loadWord rs rt imm16 s) := by
  simp only [exec, execLw, hv]

/-! ### What an instruction reads (R21) -/

/-- The state with another register file. -/
def State.withRegs (regs : Vector Word 32) (s : State) : State := { s with regs := regs }

/-- `t'` differs from `t` in registers alone, and holds the same value in the register `o` names while `t` is
running: what the use table says of two states an instruction cannot tell apart. -/
structure SameEffect (o : Option RegIdx) (t t' : State) : Prop where
  rest : t'.withRegs t.regs = t
  written : t.status = .running → ∀ r, o = some r → t'.reg r = t.reg r

section SameEffect

variable (s : State) (regs : Vector Word 32)

theorem sameEffect_writeBack (r : RegIdx) (v : Word) :
    SameEffect (some r) (s.writeBack r v) ((s.withRegs regs).writeBack r v) where
  rest := rfl
  written := by
    rintro - q ⟨⟩
    simp only [reg_writeBack, if_true]

theorem sameEffect_takeDraw {o : Option RegIdx} {t t' : State} (h : SameEffect o t t') :
    SameEffect o t.takeDraw t'.takeDraw where
  rest := congrArg State.takeDraw h.rest
  written := h.written

theorem sameEffect_setPc (a : Word) : SameEffect none (s.setPc a) ((s.withRegs regs).setPc a) where
  rest := rfl
  written := nofun

theorem sameEffect_endRun (o : Option RegIdx) {st : RunStatus} (hst : st ≠ .running) :
    SameEffect o (s.endRun st) ((s.withRegs regs).endRun st) where
  rest := rfl
  written := fun h => absurd h hst

/-- A load depends on no register but its base register. -/
theorem sameEffect_loadWord {rs : RegIdx} (hrs : (s.withRegs regs).reg rs = s.reg rs) (rt : RegIdx)
    (imm16 : BitVec 16) :
    SameEffect (some rt) (loadWord rs rt imm16 s) (loadWord rs rt imm16 (s.withRegs regs)) := by
  have haddr : lwAddress rs imm16 (s.withRegs regs) = lwAddress rs imm16 s := by
    simp only [lwAddress, alu, hrs]
    rfl
  have hread : (s.withRegs regs).memRead (lwAddress rs imm16 s) = s.memRead (lwAddress rs imm16 s) := rfl
  simp only [loadWord, haddr, hread]
  split
  · exact sameEffect_writeBack s regs rt _
  · exact sameEffect_endRun s regs _ nofun

end SameEffect

/-- An instruction of the variant has the same effect under every register file that agrees in the registers it
reads. -/
theorem exec_withRegs {i : Instr} {s t : State} {regs : Vector Word 32} (hwf : i.wf s.config.variant = true)
    (h : exec i s = .next t)
    (hreads : i.mnemonic ≠ .UNRECOGNIZED → ∀ r ∈ readsRegs i, (s.withRegs regs).reg r = s.reg r) :
    ∃ t', exec i (s.withRegs regs) = .next t' ∧ SameEffect (writesReg i) t t' := by
  cases i with
  | add rs rt rd g =>
    cases h
    obtain ⟨hrs, hrt⟩ : _ ∧ _ := by simpa [readsRegs] using hreads nofun
    rw [← hrs, ← hrt]
    exact ⟨_, rfl, sameEffect_writeBack s regs _ _⟩
  | sub rs rt rd g =>
    cases h
    obtain ⟨hrs, hrt⟩ : _ ∧ _ := by simpa [readsRegs] using hreads nofun
    rw [← hrs, ← hrt]
    exact ⟨_, rfl, sameEffect_writeBack s regs _ _⟩
  | rtypeOther rs rt rd g funct =>
    cases h
    exact ⟨_, rfl, sameEffect_takeDraw (sameEffect_writeBack s regs _ _)⟩
  | addi rs rt imm =>
    cases h
    have hrs : (s.withRegs regs).reg rs = s.reg rs := by simpa [readsRegs] using hreads nofun
    rw [← hrs]
    exact ⟨_, rfl, sameEffect_writeBack s regs _ _⟩
  | bne rs rt imm =>
    obtain ⟨hrs, hrt⟩ : _ ∧ _ := by simpa [readsRegs] using hreads nofun
    simp only [exec, execBne, branchTaken_sub, hrs, hrt] at h ⊢
    split at h <;> cases h
    · exact ⟨_, if_pos ‹_›, sameEffect_setPc s regs _⟩
    · exact ⟨_, if_neg ‹_›, sameEffect_setPc s regs _⟩
  | j rs g imm =>
    have hv : s.config.variant = .v1 := by simpa [Instr.wf] using hwf
    have hrs : (s.withRegs regs).reg rs = s.reg rs := by simpa [readsRegs] using hreads nofun
    rw [exec_j_of_v1 hv, ← hrs] at h
    cases h
    exact ⟨_, exec_j_of_v1 (s := s.withRegs regs) hv rs g imm, sameEffect_setPc s regs _⟩
  | lw rs rt imm =>
    have hv : s.config.variant = .v2 := by simpa [Instr.wf] using hwf
    have hrs : (s.withRegs regs).reg rs = s.reg rs := by simpa [readsRegs] using hreads nofun
    rw [exec_lw_of_v2 hv] at h
    cases h
    exact ⟨_, exec_lw_of_v2 (s := s.withRegs regs) hv rs rt imm, sameEffect_loadWord s regs hrs rt imm⟩
  | hlt g => cases h; exact ⟨_, rfl, sameEffect_endRun s regs _ nofun⟩
  | unrecognized op g => cases h; exact ⟨_, rfl, sameEffect_setPc s regs _⟩

/-- Where a field of a field stands in the word. -/
theorem extractLsb'_bits25to0 (w : Word) {lo len : Nat} (h : lo + len ≤ 26) :
    (bits25to0 w).extractLsb' lo len = w.extractLsb' lo len := by
  rw [bits25to0, BitVec.extractLsb'_extractLsb'_of_le h]

theorem decodeRType_mnemonic_ne_unrecognized (w : Word) : (decodeRType w).mnemonic ≠ .UNRECOGNIZED := by
  unfold decodeRType
  split_ifs <;> nofun

theorem decode_of_unrecognized {v : Variant} {w : Word} (h : (decode v w).mnemonic = .UNRECOGNIZED) :
    decode v w = .unrecognized (opcodeOf w) (bits25to0 w) := by
  unfold decode at h ⊢
  split_ifs at h ⊢
  · exact absurd h (decodeRType_mnemonic_ne_unrecognized w)
  · cases h
  · cases h
  · cases h
  · cases h
  · cases h
  · rfl

/-- The fields of an unrecognized word are those of its own bits 25:0 (R55). -/
theorem readsRegs_decode_of_unrecognized {v : Variant} {w : Word} (h : (decode v w).mnemonic = .UNRECOGNIZED) :
    readsRegs (decode v w) = [rsOf w, rtOf w] := by
  rw [decode_of_unrecognized h, readsRegs, extractLsb'_bits25to0 w (by decide), extractLsb'_bits25to0 w (by decide),
    rsOf, rtOf]

/-- Settles O39: a step's frame, the fields of an unrecognized word, and the effect under another register
file. -/
theorem registerUseTable : Obligations.RegisterUseTable := by
  refine ⟨fun i s t h q hq => exec_keeps_reg h hq, fun v w h => readsRegs_decode_of_unrecognized h, ?_⟩
  intro i s t regs _ hwf h hreads
  obtain ⟨t', ht', hsame⟩ := exec_withRegs hwf h hreads
  exact ⟨t', ht', hsame.rest, hsame.written⟩

/-! ### Renaming the registers (R19, R20) -/

theorem rename_setReg (π : Equiv.Perm RegIdx) (s : State) (r : RegIdx) (v : Word) :
    (s.setReg r v).rename π = (s.rename π).setReg (π r) v := by
  have hregs : ((s.setReg r v).rename π).regs = ((s.rename π).setReg (π r) v).regs := by
    refine regs_ext fun q => ?_
    simp only [reg_rename, reg_setReg, Equiv.symm_apply_eq]
  ext1
  case regs => exact hregs
  all_goals simp only [rename_config, rename_pc, rename_status, rename_base, rename_mem, rename_draws,
    setReg_config, setReg_pc, setReg_status, setReg_base, setReg_mem, setReg_draws]

theorem rename_writeBack (π : Equiv.Perm RegIdx) (s : State) (r : RegIdx) (v : Word) :
    (s.writeBack r v).rename π = (s.rename π).writeBack (π r) v := by
  rw [State.writeBack, rename_advance, rename_setReg, State.writeBack]

theorem rename_lwAddress (π : Equiv.Perm RegIdx) (s : State) (rs : RegIdx) (imm16 : BitVec 16) :
    lwAddress (π rs) imm16 (s.rename π) = lwAddress rs imm16 s := by
  simp only [lwAddress, rename_base, rename_draw, reg_rename_apply]

theorem rename_loadWord (π : Equiv.Perm RegIdx) (s : State) (rs rt : RegIdx) (imm16 : BitVec 16) :
    loadWord (π rs) (π rt) imm16 (s.rename π) = (loadWord rs rt imm16 s).rename π := by
  simp only [loadWord, rename_lwAddress, rename_memRead]
  split
  · exact (rename_writeBack π s rt _).symm
  · exact (rename_endRun π s _).symm

/-- Settles O38: renaming commutes with every operation an instruction is made of, and leaves its operands. -/
theorem renamingRegistersCommutesWithExec : Obligations.RenamingRegistersCommutesWithExec := by
  intro π i s
  cases i with
  | add rs rt rd g =>
    simp only [renameInstr, exec, execAdd, mapNext, rename_writeBack, rename_draw, reg_rename_apply]
  | sub rs rt rd g =>
    simp only [renameInstr, exec, execSub, mapNext, rename_writeBack, rename_draw, reg_rename_apply]
  | rtypeOther rs rt rd g funct =>
    simp only [renameInstr, exec, execRtypeOther, mapNext, rename_takeDraw, rename_writeBack, rename_draw,
      reg_rename_apply]
  | addi rs rt imm =>
    simp only [renameInstr, exec, execAddi, mapNext, rename_writeBack, rename_draw, reg_rename_apply]
  | bne rs rt imm =>
    simp only [renameInstr, exec, execBne, rename_draw, reg_rename_apply, rename_pc]
    split
    · simp only [mapNext, rename_setPc]
    · simp only [mapNext, rename_advance]
  | j rs g imm =>
    simp only [renameInstr, exec, execJ, rename_config]
    split
    · simp only [mapNext, directJump, registerJump, rename_setPc, setPc_config, setPc_pc, rename_config, rename_pc,
        reg_rename_apply]
    · simp only [mapNext, rename_advance]
  | lw rs rt imm =>
    simp only [renameInstr, exec, execLw, rename_config]
    split
    · simp only [mapNext, rename_advance]
    · simp only [mapNext, rename_loadWord]
  | hlt g => simp only [renameInstr, exec, execHlt, mapNext, rename_endRun]
  | unrecognized op g => simp only [renameInstr, exec, execUnrecognized, mapNext, rename_advance]

/-! ### `pc` after a cycle (R24) -/

/-- A cycle that ends the run keeps `pc`. -/
theorem step_keeps_pc_of_ended {s t : State} (hs : s.status = .running) (h : step s = .next t)
    (ht : t.status ≠ .running) : t.pc = s.pc := by
  obtain rfl | rfl | hexec := step_next_cases h
  · rfl
  · rfl
  · obtain ⟨r, v, rfl⟩ | ⟨r, v, rfl⟩ | ⟨a, rfl⟩ | ⟨st, -, rfl⟩ := exec_next_cases hexec
    · exact absurd hs ht
    · exact absurd hs ht
    · exact absurd hs ht
    · rfl

theorem exec_bne_pc {rs rt : RegIdx} {imm16 : BitVec 16} {s t : State} (h : exec (.bne rs rt imm16) s = .next t) :
    t.pc = if s.reg rs ≠ s.reg rt then branchTarget s.pc (sext32 imm16) else s.pc + 4 := by
  simp only [exec, execBne, branchTaken_sub] at h
  split at h <;> cases h
  · rw [if_pos ‹_›]; rfl
  · rw [if_neg ‹_›]; rfl

/-- Every instruction but BNE and J advances `pc` while the block keeps running. -/
theorem exec_advances_pc {i : Instr} {s t : State} (hbne : ∀ rs rt imm16, i ≠ .bne rs rt imm16)
    (hj : ∀ rs g imm16, i ≠ .j rs g imm16) (h : exec i s = .next t) (ht : t.status = .running) :
    t.pc = s.pc + 4 := by
  cases i with
  | add rs rt rd g => cases h; rfl
  | sub rs rt rd g => cases h; rfl
  | rtypeOther rs rt rd g funct => cases h; rfl
  | addi rs rt imm => cases h; rfl
  | bne rs rt imm => exact absurd rfl (hbne rs rt imm)
  | j rs g imm => exact absurd rfl (hj rs g imm)
  | lw rs rt imm =>
    simp only [exec, execLw, loadWord] at h
    split at h
    · cases h; rfl
    · split at h <;> cases h
      · rfl
      · cases ht
  | hlt g => cases h; cases ht
  | unrecognized op g => cases h; rfl

/-- Settles O32: by the instruction fetched, J being V1's alone. -/
theorem pcAfterEachCycle : Obligations.PcAfterEachCycle := by
  intro s t hs h
  refine ⟨step_keeps_pc_of_ended hs h, fun ht => ?_⟩
  obtain ⟨hend, -⟩ | ⟨-, -, hstep⟩ | ⟨-, -, hstep⟩ := step_cases s
  · exact absurd hs hend
  · rw [hstep] at h; cases h; cases ht
  · have hexec := hstep ▸ h
    split
    next rs rt imm16 hi =>
      rw [hi] at hexec
      exact exec_bne_pc hexec
    next rs g imm16 hi =>
      have hv := variant_of_decode_j (congrArg Instr.mnemonic hi)
      rw [hi, exec_j_of_v1 hv] at hexec
      cases hexec
      rfl
    next hbne hj => exact exec_advances_pc hbne hj hexec ht

/-! ### The diagnostic record (R113, D20) -/

theorem diagnostic_eq_none {s : State} (h : s.status ≠ .running ∨ s.fetch = none) : diagnostic s = none := by
  unfold diagnostic
  split
  next w hs hf =>
    rw [hs, hf] at h
    exact absurd h (by simp)
  · rfl

/-- The record of a cycle that runs an instruction. -/
theorem diagnostic_of_exec {i : Instr} {s t : State} (hs : s.status = .running)
    (hb : s.pc.toNat / 4 < s.config.memWords)
    (hi : decode s.config.variant (s.word (s.pc.toNat / 4)) = i) (h : exec i s = .next t) :
    diagnostic s =
      if isReported s.config.variant i then
        some { branch := branchReport i s, written := writeReport i s, pcAfter := t.pc }
      else none := by
  have hf : s.fetch = some (s.word (s.pc.toNat / 4)) := if_pos hb
  simp only [diagnostic, hs, hf, step_of_fetch hs hf, hi, h]
  cases isReported s.config.variant i
  · rfl
  · rfl

/-- Of the instructions of the variant, HLT and J alone go unreported. -/
theorem isReported_decode_eq_false_iff (v : Variant) (w : Word) :
    isReported v (decode v w) = false ↔ (decode v w).mnemonic = .HLT ∨ (decode v w).mnemonic = .J := by
  have hJ : (decode v w).mnemonic = .J → v = .v1 := variant_of_decode_j
  cases hi : decode v w with
  | j rs g imm =>
    obtain rfl := hJ (congrArg Instr.mnemonic hi)
    exact ⟨fun _ => .inr rfl, fun _ => rfl⟩
  | hlt g => exact ⟨fun _ => .inl rfl, fun _ => rfl⟩
  | _ => simp [isReported, Instr.mnemonic]

/-- An instruction of the variant writes the register it names, unless it ends in a data fault. -/
theorem writeReport_fst {i : Instr} {s t : State} (hs : s.status = .running)
    (hlw : i.mnemonic = .LW → s.config.variant = .v2) (h : exec i s = .next t) :
    (writeReport i s).map Prod.fst = if t.status = .faultDataOob then none else writesReg i := by
  obtain ⟨r, v, hr, hreport, hstatus, -⟩ | ⟨hreport, -, hwhy⟩ := exec_regs_cases h
  · rw [hreport, hr, hstatus, hs]
    rfl
  · rw [hreport]
    obtain hnone | hfault | ⟨hLW, hv1⟩ := hwhy
    · rw [hnone, ite_self]; rfl
    · rw [if_pos hfault]; rfl
    · rw [hlw hLW] at hv1
      cases hv1

/-- The register reported holds the value reported, and no other changes. -/
theorem writesReg_of_writeReport {i : Instr} {s t : State} (h : exec i s = .next t) {r : RegIdx} {v : Word}
    (hreport : writeReport i s = some (r, v)) : WritesReg r v s t := by
  obtain ⟨r', v', -, hreport', -, hwrite⟩ | ⟨hnone, -, -⟩ := exec_regs_cases h
  · cases hreport.symm.trans hreport'
    exact hwrite
  · cases hreport.symm.trans hnone

theorem keepsRegs_of_writeReport_none {i : Instr} {s t : State} (h : exec i s = .next t)
    (hreport : writeReport i s = none) : KeepsRegs s t := by
  obtain ⟨r, v, -, hreport', -, -⟩ | ⟨-, hkeep, -⟩ := exec_regs_cases h
  · cases hreport.symm.trans hreport'
  · exact hkeep

theorem branchReport_eq_none {i : Instr} (s : State) (hi : i.mnemonic ≠ .BNE) : branchReport i s = none := by
  cases i with
  | bne rs rt imm => exact absurd rfl hi
  | _ => rfl

/-- Settles O55: a record is that of the instruction the cycle runs. -/
theorem diagnosticTellsTheCycle : Obligations.DiagnosticTellsTheCycle := by
  refine ⟨fun s => ?_, fun s d hd => ?_⟩
  · obtain ⟨hs, -⟩ | ⟨hs, hb, -⟩ | ⟨hs, hb, -⟩ := step_cases s
    · exact iff_of_true (diagnostic_eq_none (.inl hs)) (.inl hs)
    · exact iff_of_true (diagnostic_eq_none (.inr (if_neg (Nat.not_lt.2 hb)))) (.inr (.inl hb))
    · obtain ⟨t, hexec⟩ := exec_total (decode s.config.variant (s.word (s.pc.toNat / 4))) s
      rw [diagnostic_of_exec hs hb rfl hexec, ← isReported_decode_eq_false_iff]
      simp [hs, Nat.not_le.2 hb]
  · obtain ⟨hs, -⟩ | ⟨hs, hb, -⟩ | ⟨hs, hb, hstep⟩ := step_cases s
    · rw [diagnostic_eq_none (.inl hs)] at hd; cases hd
    · rw [diagnostic_eq_none (.inr (if_neg (Nat.not_lt.2 hb)))] at hd; cases hd
    · obtain ⟨t, hexec⟩ := exec_total (decode s.config.variant (s.word (s.pc.toNat / 4))) s
      rw [diagnostic_of_exec hs hb rfl hexec] at hd
      split at hd <;> cases hd
      refine ⟨t, hstep.trans hexec, rfl, ?_, fun r v => writesReg_of_writeReport hexec,
        keepsRegs_of_writeReport_none hexec, fun rs rt imm16 hi => ?_, branchReport_eq_none s⟩
      · exact writeReport_fst hs variant_of_decode_lw hexec
      · rw [hi]
        rfl

end Sys2Proof.Machine

/-! ## Memory: the image a run keeps, the order of its bytes, and dropped address bits -/

namespace Sys2Proof.Machine

/-! ### The launched image (R53) -/

/-- No state a run reaches has another configuration or memory than the state it starts from (R39, R120). -/
theorem reaches_keeps_config_mem {s t : State} (h : Reaches s t) : t.config = s.config ∧ t.mem = s.mem := by
  refine reaches_induction (P := fun u => u.config = s.config ∧ u.mem = s.mem) ?_ ⟨rfl, rfl⟩ h
  rintro u u' ⟨hconfig, hmem⟩ hstep
  obtain ⟨hconfig', -, hmem'⟩ := step_keeps_config_base_mem hstep
  exact ⟨hconfig'.trans hconfig, hmem'.trans hmem⟩

/-- Settles O41: memory and the byte order stay those of the launch, which holds the image. -/
theorem memoryIsMem0ThroughoutTheRun : Obligations.MemoryIsMem0ThroughoutTheRun := by
  intro config lwBase regs0 mem0 t h
  obtain ⟨hconfig, hmem⟩ := reaches_keeps_config_mem h
  refine ⟨hmem, fun k hk => ?_⟩
  rw [word_congr hmem (congrArg Config.loaderByteOrder hconfig), word_launch, List.getD_eq_getElem _ _ hk]

/-! ### Blocks that hold the same words (log entry 6) -/

/-- An access answers the word at an index inside memory, and nothing else of the state. -/
theorem memRead_congr {s t : State} {a b : Word} (hn : s.config.memWords = t.config.memWords)
    (hwords : ∀ k, s.word k = t.word k) (hab : a.toNat / 4 = b.toNat / 4) : s.memRead a = t.memRead b := by
  simp only [State.memRead, State.wordAt, hn, hwords, hab]

/-- The state with its memory laid out anew: other bytes, in a byte order of their own. -/
def State.withLayout (o : ByteOrder) (m : Memory) (s : State) : State :=
  { s with config := { s.config with loaderByteOrder := o }, mem := m }

/-- Lays out as `t`'s the memory of every state that holds `s`'s. No step changes the memory or the byte order a
state holds, so this change commutes with every step. -/
def State.relayout (s t u : State) : State :=
  if u.mem = s.mem ∧ u.config.loaderByteOrder = s.config.loaderByteOrder then
    u.withLayout t.config.loaderByteOrder t.mem
  else u

theorem relayout_self {s t : State} (h : SameWords s t) : s.relayout t s = t := by
  obtain ⟨⟨v, n, j, o⟩, regs, pc, status, base, mem, draws⟩ := s
  obtain ⟨⟨v', n', j', o'⟩, regs', pc', status', base', mem', draws'⟩ := t
  obtain ⟨rfl, rfl, rfl, rfl, rfl, rfl, rfl, rfl, -⟩ := h
  exact if_pos ⟨rfl, rfl⟩

/-- Where `s` and `t` hold the same words, the change keeps every word, and all but the layout of memory. -/
theorem sameWords_relayout {s t : State} (hwords : ∀ k, s.word k = t.word k) (u : State) :
    SameWords u (s.relayout t u) := by
  unfold State.relayout
  split
  next hu => exact ⟨rfl, rfl, rfl, rfl, rfl, rfl, rfl, rfl, fun k => (word_congr hu.1 hu.2 k).trans (hwords k)⟩
  next => exact ⟨rfl, rfl, rfl, rfl, rfl, rfl, rfl, rfl, fun _ => rfl⟩

/-- An operation that keeps memory and the byte order, and does not see them, commutes with the new layout. -/
theorem relayout_comm (s t : State) {g : State → State}
    (hkeep : ∀ u, (g u).mem = u.mem ∧ (g u).config = u.config)
    (hg : ∀ o m u, g (u.withLayout o m) = (g u).withLayout o m) (u : State) :
    s.relayout t (g u) = g (s.relayout t u) := by
  obtain ⟨hmem, hconfig⟩ := hkeep u
  simp only [State.relayout, apply_ite g, hg, hmem, hconfig]

theorem keepsOperands_relayout {s t : State} (hwords : ∀ k, s.word k = t.word k) :
    KeepsOperands (s.relayout t) where
  reg u r := congrArg (·[r]) (sameWords_relayout hwords u).regs.symm
  pc u := (sameWords_relayout hwords u).pc.symm
  status u := (sameWords_relayout hwords u).status.symm
  memRead u a := (memRead_congr (sameWords_relayout hwords u).memWords (sameWords_relayout hwords u).words rfl).symm
  setReg u r v := relayout_comm s t (g := fun u => u.setReg r v) (fun _ => ⟨rfl, rfl⟩) (fun _ _ _ => rfl) u
  setPc u a := relayout_comm s t (g := fun u => u.setPc a) (fun _ => ⟨rfl, rfl⟩) (fun _ _ _ => rfl) u
  endRun u st := relayout_comm s t (g := fun u => u.endRun st) (fun _ => ⟨rfl, rfl⟩) (fun _ _ _ => rfl) u

/-- A step does the same with the words in the one layout and in the other. -/
theorem step_relayout {s t : State} (hwords : ∀ k, s.word k = t.word k) (u : State) :
    step (s.relayout t u) = mapNext (s.relayout t) (step u) := by
  obtain ⟨hv, -, hj, -, -, -, hb, hd, -⟩ := sameWords_relayout hwords u
  have hkeeps := keepsOperands_relayout hwords
  refine hkeeps.step_comm (by rw [hv]) ?_
  exact hkeeps.exec_comm (fun _ => ⟨hv.symm, hj.symm⟩) (fun _ => ⟨hv.symm, hb.symm⟩)
    (fun _ => ⟨hd.symm, relayout_comm s t (fun _ => ⟨rfl, rfl⟩) (fun _ _ _ => rfl)⟩)

/-- Settles O46: the second block is the first one laid out anew, and so is its next state. -/
theorem byteOrderIsUnobservable : Obligations.ByteOrderIsUnobservable := by
  intro s t h
  obtain ⟨s', hs'⟩ := everyStepAnswersANextState s
  refine ⟨s', s.relayout t s', hs', ?_, sameWords_relayout h.words s'⟩
  calc step t = step (s.relayout t s) := by rw [relayout_self h]
    _ = mapNext (s.relayout t) (step s) := step_relayout h.words s
    _ = .next (s.relayout t s') := by rw [hs', mapNext]

/-! ### Bits 1:0 of an address (R42, R43) -/

/-- What LW does depends on its base register and immediate by the word index of their address alone. -/
theorem loadWord_congr {rs rs' : RegIdx} {imm16 imm16' : BitVec 16} {s : State} (rt : RegIdx)
    (h : (lwAddress rs imm16 s).toNat / 4 = (lwAddress rs' imm16' s).toNat / 4) :
    loadWord rs rt imm16 s = loadWord rs' rt imm16' s := by
  simp only [loadWord, memRead_congr rfl (fun _ => rfl) h]

/-- Settles O19: an access uses no more of its address than the word index. -/
theorem lowAddressBitsAreDropped : Obligations.LowAddressBitsAreDropped := by
  constructor
  · intro rs rs' rt imm16 imm16' s h
    simp only [exec, execLw, loadWord_congr rt h]
  · intro p s h
    exact memRead_congr (s := s.setPc p) (t := s) rfl (fun _ => rfl) h

end Sys2Proof.Machine

/-! ## Encoding: the rows of the decoder and of the control table -/

namespace Sys2Proof.Machine

/-! ### The decoder by opcode (R69, R70) -/

theorem mem_recognizedOpcodes (v : Variant) (op : BitVec 6) :
    op ∈ recognizedOpcodes v ↔
      op = 0x00#6 ∨ op = 0x08#6 ∨ op = 0x05#6 ∨ (op = 0x02#6 ∧ v = .v1) ∨ (op = 0x23#6 ∧ v = .v2) ∨
        op = 0x3F#6 := by
  cases v
  · simp [recognizedOpcodes]
  · simp [recognizedOpcodes]

theorem ne_of_not_recognized {v : Variant} {op : BitVec 6} (h : op ∉ recognizedOpcodes v) :
    op ≠ 0x00#6 ∧ op ≠ 0x08#6 ∧ op ≠ 0x05#6 ∧ ¬(op = 0x02#6 ∧ v = .v1) ∧ ¬(op = 0x23#6 ∧ v = .v2) ∧
      op ≠ 0x3F#6 := by
  simpa only [mem_recognizedOpcodes, not_or] using h

/-- An opcode is that of a row the variant has, or outside the variant's control table. -/
theorem opcode_cases (v : Variant) (op : BitVec 6) :
    op = 0x00#6 ∨ op = 0x08#6 ∨ op = 0x05#6 ∨ (op = 0x02#6 ∧ v = .v1) ∨ (op = 0x23#6 ∧ v = .v2) ∨
      op = 0x3F#6 ∨ op ∉ recognizedOpcodes v := by
  rw [mem_recognizedOpcodes]
  tauto

theorem decode_of_rtype {w : Word} (h : opcodeOf w = 0x00#6) (v : Variant) : decode v w = decodeRType w :=
  if_pos h

theorem decode_of_addi {w : Word} (h : opcodeOf w = 0x08#6) (v : Variant) :
    decode v w = .addi (rsOf w) (rtOf w) (imm16Of w) := by
  simp [decode, h]

theorem decode_of_bne {w : Word} (h : opcodeOf w = 0x05#6) (v : Variant) :
    decode v w = .bne (rsOf w) (rtOf w) (imm16Of w) := by
  simp [decode, h]

theorem decode_of_j {w : Word} (h : opcodeOf w = 0x02#6) :
    decode .v1 w = .j (rsOf w) (bits20to16 w) (imm16Of w) := by
  simp [decode, h]

theorem decode_of_lw {w : Word} (h : opcodeOf w = 0x23#6) :
    decode .v2 w = .lw (rsOf w) (rtOf w) (imm16Of w) := by
  simp [decode, h]

theorem decode_of_hlt {w : Word} (h : opcodeOf w = 0x3F#6) (v : Variant) : decode v w = .hlt (bits25to0 w) := by
  simp [decode, h]

theorem decode_of_not_recognized {v : Variant} {w : Word} (h : opcodeOf w ∉ recognizedOpcodes v) :
    decode v w = .unrecognized (opcodeOf w) (bits25to0 w) := by
  obtain ⟨h0, h8, h5, hj, hlw, h3F⟩ := ne_of_not_recognized h
  rw [decode, if_neg h0, if_neg h8, if_neg h5, if_neg hj, if_neg hlw, if_neg h3F]

theorem decodeRType_of_add {w : Word} (h : functOf w = 0x20#6) :
    decodeRType w = .add (rsOf w) (rtOf w) (rdOf w) (bits10to6 w) :=
  if_pos h

theorem decodeRType_of_sub {w : Word} (h : functOf w = 0x22#6) :
    decodeRType w = .sub (rsOf w) (rtOf w) (rdOf w) (bits10to6 w) := by
  simp [decodeRType, h]

theorem decodeRType_of_other {w : Word} (hadd : functOf w ≠ 0x20#6) (hsub : functOf w ≠ 0x22#6) :
    decodeRType w = .rtypeOther (rsOf w) (rtOf w) (rdOf w) (bits10to6 w) (functOf w) := by
  rw [decodeRType, if_neg hadd, if_neg hsub]

/-- What a word can decode to, with the opcode and `funct` that select each row. -/
theorem decode_cases (v : Variant) (w : Word) :
    (opcodeOf w = 0x00#6 ∧ functOf w = 0x20#6 ∧
      decode v w = .add (rsOf w) (rtOf w) (rdOf w) (bits10to6 w)) ∨
    (opcodeOf w = 0x00#6 ∧ functOf w = 0x22#6 ∧
      decode v w = .sub (rsOf w) (rtOf w) (rdOf w) (bits10to6 w)) ∨
    (opcodeOf w = 0x00#6 ∧ (functOf w ≠ 0x20#6 ∧ functOf w ≠ 0x22#6) ∧
      decode v w = .rtypeOther (rsOf w) (rtOf w) (rdOf w) (bits10to6 w) (functOf w)) ∨
    (opcodeOf w = 0x08#6 ∧ decode v w = .addi (rsOf w) (rtOf w) (imm16Of w)) ∨
    (opcodeOf w = 0x05#6 ∧ decode v w = .bne (rsOf w) (rtOf w) (imm16Of w)) ∨
    (opcodeOf w = 0x02#6 ∧ v = .v1 ∧ decode v w = .j (rsOf w) (bits20to16 w) (imm16Of w)) ∨
    (opcodeOf w = 0x23#6 ∧ v = .v2 ∧ decode v w = .lw (rsOf w) (rtOf w) (imm16Of w)) ∨
    (opcodeOf w = 0x3F#6 ∧ decode v w = .hlt (bits25to0 w)) ∨
    (opcodeOf w ∉ recognizedOpcodes v ∧ decode v w = .unrecognized (opcodeOf w) (bits25to0 w)) := by
  obtain h | h | h | ⟨h, rfl⟩ | ⟨h, rfl⟩ | h | h := opcode_cases v (opcodeOf w)
  · rw [decode_of_rtype h]
    by_cases hadd : functOf w = 0x20#6
    · exact .inl ⟨h, hadd, decodeRType_of_add hadd⟩
    · by_cases hsub : functOf w = 0x22#6
      · exact .inr (.inl ⟨h, hsub, decodeRType_of_sub hsub⟩)
      · exact .inr (.inr (.inl ⟨h, ⟨hadd, hsub⟩, decodeRType_of_other hadd hsub⟩))
  · exact .inr (.inr (.inr (.inl ⟨h, decode_of_addi h v⟩)))
  · exact .inr (.inr (.inr (.inr (.inl ⟨h, decode_of_bne h v⟩))))
  · exact .inr (.inr (.inr (.inr (.inr (.inl ⟨h, rfl, decode_of_j h⟩)))))
  · exact .inr (.inr (.inr (.inr (.inr (.inr (.inl ⟨h, rfl, decode_of_lw h⟩))))))
  · exact .inr (.inr (.inr (.inr (.inr (.inr (.inr (.inl ⟨h, decode_of_hlt h v⟩)))))))
  · exact .inr (.inr (.inr (.inr (.inr (.inr (.inr (.inr ⟨h, decode_of_not_recognized h⟩)))))))

/-! ### Decoding against encoding (R55, R56) -/

/-- Settles O3: the encoded word has the row's opcode and `funct`, and each operand in its field. -/
theorem decodeOfEncodeIsTheInstruction : Obligations.DecodeOfEncodeIsTheInstruction := by
  intro v i hwf
  cases i with
  | add rs rt rd g =>
    rw [encode, decode_of_rtype (opcodeOf_encodeR ..), decodeRType_of_add (functOf_encodeR ..)]
    simp
  | sub rs rt rd g =>
    rw [encode, decode_of_rtype (opcodeOf_encodeR ..), decodeRType_of_sub (functOf_encodeR ..)]
    simp
  | rtypeOther rs rt rd g funct =>
    obtain ⟨hadd, hsub⟩ : funct ≠ 0x20#6 ∧ funct ≠ 0x22#6 := by simpa [Instr.wf] using hwf
    rw [encode, decode_of_rtype (opcodeOf_encodeR ..), decodeRType_of_other (by simpa) (by simpa)]
    simp
  | addi rs rt imm =>
    rw [encode, decode_of_addi (opcodeOf_encodeI ..)]
    simp
  | bne rs rt imm =>
    rw [encode, decode_of_bne (opcodeOf_encodeI ..)]
    simp
  | j rs g imm =>
    obtain rfl : v = .v1 := by simpa [Instr.wf] using hwf
    rw [encode, decode_of_j (opcodeOf_encodeI ..)]
    simp
  | lw rs rt imm =>
    obtain rfl : v = .v2 := by simpa [Instr.wf] using hwf
    rw [encode, decode_of_lw (opcodeOf_encodeI ..)]
    simp
  | hlt g =>
    rw [encode, decode_of_hlt (opcodeOf_encodeBare ..)]
    simp
  | unrecognized op g =>
    have hop : op ∉ recognizedOpcodes v := by simpa [Instr.wf] using hwf
    rw [encode, decode_of_not_recognized (by simpa)]
    simp

/-- Settles O4: every row keeps all the fields of the format its word is written in. -/
theorem encodeOfDecodeIsTheWord : Obligations.EncodeOfDecodeIsTheWord := by
  intro v w
  obtain ⟨h, hf, hi⟩ | ⟨h, hf, hi⟩ | ⟨h, -, hi⟩ | ⟨h, hi⟩ | ⟨h, hi⟩ | ⟨h, -, hi⟩ | ⟨h, -, hi⟩ | ⟨h, hi⟩ | ⟨-, hi⟩ :=
    decode_cases v w
  · rw [hi, encode, ← hf, encodeR_of_fields h]
  · rw [hi, encode, ← hf, encodeR_of_fields h]
  · rw [hi, encode, encodeR_of_fields h]
  · rw [hi, encode, ← h, bitsOfReg_rtOf, encodeI_of_fields]
  · rw [hi, encode, ← h, bitsOfReg_rtOf, encodeI_of_fields]
  · rw [hi, encode, ← h, encodeI_of_fields]
  · rw [hi, encode, ← h, bitsOfReg_rtOf, encodeI_of_fields]
  · rw [hi, encode, ← h, encodeBare_of_fields]
  · rw [hi, encode, encodeBare_of_fields]

/-! ### What selects the row (R71) -/

/-- The decoder gives an instruction its variant has. -/
theorem wf_decode (v : Variant) (w : Word) : (decode v w).wf v = true := by
  obtain ⟨-, -, hi⟩ | ⟨-, -, hi⟩ | ⟨-, hf, hi⟩ | ⟨-, hi⟩ | ⟨-, hi⟩ | ⟨-, rfl, hi⟩ | ⟨-, rfl, hi⟩ | ⟨-, hi⟩ | ⟨h, hi⟩ :=
    decode_cases v w
  · rw [hi]; rfl
  · rw [hi]; rfl
  · simpa [hi, Instr.wf] using hf
  · rw [hi]; rfl
  · rw [hi]; rfl
  · rw [hi]; rfl
  · rw [hi]; rfl
  · rw [hi]; rfl
  · simpa [hi, Instr.wf] using h

theorem mnemonic_decodeRType_congr {w w' : Word} (h : functOf w = functOf w') :
    (decodeRType w).mnemonic = (decodeRType w').mnemonic := by
  simp only [decodeRType, h]
  split_ifs
  · rfl
  · rfl
  · rfl

/-- Settles O5: two words of one opcode take the same branch of the decoder, and of R-type words `funct` selects the
row. -/
theorem opcodeAndFunctSelectTheRow : Obligations.OpcodeAndFunctSelectTheRow := by
  refine ⟨wf_decode, fun v w w' hop hfunct => ?_⟩
  obtain h | h | h | ⟨h, rfl⟩ | ⟨h, rfl⟩ | h | h := opcode_cases v (opcodeOf w)
  · rw [decode_of_rtype h, decode_of_rtype (hop ▸ h)]
    exact mnemonic_decodeRType_congr (hfunct h)
  · rw [decode_of_addi h, decode_of_addi (hop ▸ h)]; rfl
  · rw [decode_of_bne h, decode_of_bne (hop ▸ h)]; rfl
  · rw [decode_of_j h, decode_of_j (hop ▸ h)]; rfl
  · rw [decode_of_lw h, decode_of_lw (hop ▸ h)]; rfl
  · rw [decode_of_hlt h, decode_of_hlt (hop ▸ h)]; rfl
  · rw [decode_of_not_recognized h, decode_of_not_recognized (hop ▸ h)]; rfl

/-! ### The rows of the opcode table (R70) -/

/-- A row whose mask is the opcode takes the words of its opcode. -/
theorem takes_opcode_row (m : Mnemonic) (op : BitVec 6) (vs : List Variant) (v : Variant) (w : Word) :
    TableRow.takes ⟨m, op ++ 0#26, 0xFC000000, vs⟩ v w = decide (opcodeOf w = op ∧ v ∈ vs) := by
  simp [TableRow.takes, ← opcode_mask_iff, beq_eq_decide, Bool.and_comm]

/-- A row whose mask is the opcode and `funct` takes the words that have both. -/
theorem takes_funct_row (m : Mnemonic) (op funct : BitVec 6) (vs : List Variant) (v : Variant) (w : Word) :
    TableRow.takes ⟨m, op ++ 0#20 ++ funct, 0xFC00003F, vs⟩ v w =
      decide ((opcodeOf w = op ∧ functOf w = funct) ∧ v ∈ vs) := by
  simp [TableRow.takes, ← opcode_funct_mask_iff, beq_eq_decide, Bool.and_comm]

/-- The row of the empty mask takes every word. -/
theorem takes_maskless_row (m : Mnemonic) (vs : List Variant) (v : Variant) (w : Word) :
    TableRow.takes ⟨m, 0, 0, vs⟩ v w = decide (v ∈ vs) := by
  simp [TableRow.takes]

/-- Most rows stand in both variants. -/
theorem mem_both_variants (v : Variant) : v ∈ [Variant.v1, Variant.v2] := by
  cases v
  · decide
  · decide

/-- The rows of spec/opcode_table.json, written by opcode and `funct`. -/
theorem opcodeTable_eq : opcodeTable =
    [ ⟨.ADD, 0x00#6 ++ 0#20 ++ 0x20#6, 0xFC00003F, [.v1, .v2]⟩,
      ⟨.SUB, 0x00#6 ++ 0#20 ++ 0x22#6, 0xFC00003F, [.v1, .v2]⟩,
      ⟨.ADDI, 0x08#6 ++ 0#26, 0xFC000000, [.v1, .v2]⟩,
      ⟨.BNE, 0x05#6 ++ 0#26, 0xFC000000, [.v1, .v2]⟩,
      ⟨.J, 0x02#6 ++ 0#26, 0xFC000000, [.v1]⟩,
      ⟨.LW, 0x23#6 ++ 0#26, 0xFC000000, [.v2]⟩,
      ⟨.HLT, 0x3F#6 ++ 0#26, 0xFC000000, [.v1, .v2]⟩,
      ⟨.RTYPE_OTHER, 0x00#6 ++ 0#26, 0xFC000000, [.v1, .v2]⟩,
      ⟨.UNRECOGNIZED, 0, 0, [.v1, .v2]⟩ ] := rfl

/-- Settles O6: the rows before the decoded one want another opcode or `funct`, or another variant. -/
theorem decoderFollowsTheOpcodeTable : Obligations.DecoderFollowsTheOpcodeTable := by
  intro v w
  simp only [opcodeTable_eq, List.find?_cons, takes_funct_row, takes_opcode_row, takes_maskless_row,
    mem_both_variants, List.mem_singleton, and_true]
  obtain ⟨h, hf, hi⟩ | ⟨h, hf, hi⟩ | ⟨h, ⟨hadd, hsub⟩, hi⟩ | ⟨h, hi⟩ | ⟨h, hi⟩ | ⟨h, rfl, hi⟩ | ⟨h, rfl, hi⟩ | ⟨h, hi⟩ |
    ⟨h, hi⟩ := decode_cases v w
  · rw [hi, h, hf]; rfl
  · rw [hi, h, hf]; rfl
  · simp [hi, h, hadd, hsub, Instr.mnemonic]
  · simp [hi, h, Instr.mnemonic]
  · simp [hi, h, Instr.mnemonic]
  · simp [hi, h, Instr.mnemonic]
  · simp [hi, h, Instr.mnemonic]
  · simp [hi, h, Instr.mnemonic]
  · obtain ⟨h0, h8, h5, hj, hlw, h3F⟩ := ne_of_not_recognized h
    simp only [hi, h0, h8, h5, hj, hlw, h3F, false_and, decide_false, decide_true, Option.map_some, Instr.mnemonic]

/-! ### The ignored bits (R56, R72) -/

/-- An R-type word's effect is that of its three registers and its `funct`. -/
theorem exec_decodeRType_congr {w w' : Word} (hrs : rsOf w = rsOf w') (hrt : rtOf w = rtOf w')
    (hrd : rdOf w = rdOf w') (hfunct : functOf w = functOf w') (s : State) :
    exec (decodeRType w) s = exec (decodeRType w') s := by
  simp only [decodeRType, hrs, hrt, hrd, hfunct]
  split_ifs
  · rfl
  · rfl
  · rfl

/-- Settles O7: both words decode to one row with the same operands, and `exec` reads nothing else. -/
theorem ignoredBitsChangeNothing : Obligations.IgnoredBitsChangeNothing := by
  intro v w w' s hop
  refine ⟨fun h hrs hrt hrd hfunct => ?_, fun h hv hrs himm => ?_, fun h => ?_, fun h => ?_⟩
  · rw [decode_of_rtype h, decode_of_rtype (hop ▸ h), exec_decodeRType_congr hrs hrt hrd hfunct]
  · rw [hv, decode_of_j h, decode_of_j (hop ▸ h), hrs, himm]; rfl
  · rw [decode_of_hlt h, decode_of_hlt (hop ▸ h)]; rfl
  · rw [decode_of_not_recognized h, decode_of_not_recognized (hop ▸ h)]; rfl

/-- A word that decodes to the same instruction in V1 and in V2. -/
theorem decode_in_either_variant {w : Word} {i : Instr} (h1 : decode .v1 w = i) (h2 : decode .v2 w = i)
    (v : Variant) : decode v w = i := by
  cases v
  · exact h1
  · exact h2

/-- Settles O1: each word is decoded by evaluation, in both variants where the statement says so. -/
theorem specWordsDecode : Obligations.SpecWordsDecode := by
  refine ⟨decode_in_either_variant ?_ ?_, decode_in_either_variant ?_ ?_, decode_in_either_variant ?_ ?_,
    decode_in_either_variant ?_ ?_, decode_in_either_variant ?_ ?_, decode_in_either_variant ?_ ?_, ?_, ?_,
    decode_in_either_variant ?_ ?_, decode_in_either_variant ?_ ?_, ?_, ?_⟩
  all_goals decide

/-! ### The control table (R59 to R68) -/

/-- The opcodes without a row of their own have the cleared signals (R65, R66). -/
theorem controlSignals_of_not_recognized {v : Variant} {op : BitVec 6} (h : op ∉ recognizedOpcodes v)
    (funct : BitVec 6) : controlSignals v op funct = ControlSignals.cleared := by
  obtain ⟨h0, h8, h5, hj, hlw, -⟩ := ne_of_not_recognized h
  rw [controlSignals, if_neg h0, if_neg h8, if_neg h5, if_neg hj, if_neg hlw]

/-- Settles O8: a recognized opcode's row is written out, and every other opcode leaves the cleared record. -/
theorem controlTableRows : Obligations.ControlTableRows := by
  refine ⟨fun _ _ => rfl, fun _ _ => rfl, fun _ _ => rfl, fun _ => rfl, fun _ => rfl, fun v op funct h => ?_⟩
  obtain rfl | h := h
  · cases v
    · rfl
    · rfl
  · exact controlSignals_of_not_recognized h funct

/-- Settles O9: no row of the table sets the two signals, and the unit and the loop never name them. -/
theorem deadSignalsAreInert : Obligations.DeadSignalsAreInert := by
  refine ⟨fun v op funct => ?_, fun cs b b' f s => ⟨rfl, fun a redirected => rfl⟩⟩
  unfold controlSignals
  split_ifs
  · exact ⟨rfl, rfl⟩
  · exact ⟨rfl, rfl⟩
  · exact ⟨rfl, rfl⟩
  · exact ⟨rfl, rfl⟩
  · exact ⟨rfl, rfl⟩
  · exact ⟨rfl, rfl⟩

theorem rTypeAluOp_mem (funct : BitVec 6) : rTypeAluOp funct ∈ [AluTag.add, AluTag.sub, AluTag.reset] := by
  unfold rTypeAluOp
  split_ifs
  · decide
  · decide
  · decide

/-- Settles O10: an R-type row takes its tag from `funct`, and every other row has a tag of its own. -/
theorem decoderNeverProducesDeadTags : Obligations.DecoderNeverProducesDeadTags := by
  intro v op funct
  unfold controlSignals
  split_ifs
  · exact rTypeAluOp_mem funct
  · decide
  · decide
  · decide
  · decide
  · decide

/-! ### The opcodes of J and LW in the other variant (R69) -/

/-- A running block whose fetched word has an opcode outside the control table only advances (R100). -/
theorem step_of_not_recognized {s : State} (hs : s.status = .running) (hb : s.pc.toNat / 4 < s.config.memWords)
    (h : opcodeOf (s.word (s.pc.toNat / 4)) ∉ recognizedOpcodes s.config.variant) : step s = .next s.advance := by
  have hf : s.fetch = some (s.word (s.pc.toNat / 4)) := if_pos hb
  rw [step_of_fetch hs hf, decode_of_not_recognized h]
  rfl

theorem onlySetsPc_advance (s : State) : OnlySetsPc (s.pc + 4) s s.advance := onlySetsPc_setPc s _

/-- Settles O25: J's opcode is outside the control table of V2, and LW's outside that of V1. -/
theorem otherVariantsOpcodeIsNoOp : Obligations.OtherVariantsOpcodeIsNoOp := by
  intro s hs hb hother
  refine ⟨s.advance, step_of_not_recognized hs hb ?_, onlySetsPc_advance s⟩
  obtain ⟨hv, hop⟩ | ⟨hv, hop⟩ := hother
  · rw [hv, hop]; decide
  · rw [hv, hop]; decide

/-- Settles O26: each meaning asks the variant first, and in the other one only advances. -/
theorem illFormedJAndLwAreNoOps : Obligations.IllFormedJAndLwAreNoOps := by
  constructor
  · intro rs g imm16 s hv
    exact ⟨s.advance, by simp only [exec, execJ, hv], onlySetsPc_advance s⟩
  · intro rs rt imm16 s hv
    exact ⟨s.advance, by simp only [exec, execLw, hv], onlySetsPc_advance s⟩

/-! ### The data fault (R101, R102) -/

/-- The ways an instruction leaves `status`: kept, HLT's halt, or the data fault of an LW of V2. -/
theorem exec_status_cases {i : Instr} {s t : State} (h : exec i s = .next t) :
    t.status = s.status ∨ (t.status = .halted ∧ i.mnemonic = .HLT) ∨
      (t.status = .faultDataOob ∧ i.mnemonic = .LW ∧ s.config.variant = .v2) := by
  cases i with
  | add rs rt rd g => cases h; exact .inl rfl
  | sub rs rt rd g => cases h; exact .inl rfl
  | rtypeOther rs rt rd g funct => cases h; exact .inl rfl
  | addi rs rt imm => cases h; exact .inl rfl
  | bne rs rt imm =>
    simp only [exec, execBne] at h
    split at h <;> cases h
    · exact .inl rfl
    · exact .inl rfl
  | j rs g imm =>
    simp only [exec, execJ] at h
    split at h <;> cases h
    · exact .inl rfl
    · exact .inl rfl
  | lw rs rt imm =>
    simp only [exec, execLw] at h
    split at h <;> cases h
    · exact .inl rfl
    next hv =>
      simp only [loadWord]
      split
      · exact .inl rfl
      · exact .inr (.inr ⟨rfl, rfl, hv⟩)
  | hlt g => cases h; exact .inr (.inl ⟨rfl, rfl⟩)
  | unrecognized op g => cases h; exact .inl rfl

/-- No step of a V1 block raises the data fault. -/
theorem step_keeps_no_data_fault {s t : State} (hv : s.config.variant = .v1) (hs : s.status ≠ .faultDataOob)
    (h : step s = .next t) : t.status ≠ .faultDataOob := by
  obtain rfl | rfl | hexec := step_next_cases h
  · exact hs
  · nofun
  · obtain hkeep | ⟨hhalt, -⟩ | ⟨-, -, hv2⟩ := exec_status_cases hexec
    · rwa [hkeep]
    · rw [hhalt]; nofun
    · rw [hv] at hv2; cases hv2

/-- Settles O54: the variant never changes, and no step of V1 raises the data fault. -/
theorem v1RunsNeverFaultOnData : Obligations.V1RunsNeverFaultOnData := by
  intro s hv hs t h
  have hkept (u u' : State) (hu : u.config.variant = .v1 ∧ u.status ≠ .faultDataOob) (hstep : step u = .next u') :
      u'.config.variant = .v1 ∧ u'.status ≠ .faultDataOob := by
    obtain ⟨hv1, hnofault⟩ := hu
    obtain ⟨hconfig, -, -⟩ := step_keeps_config_base_mem hstep
    exact ⟨hconfig ▸ hv1, step_keeps_no_data_fault hv1 hnofault hstep⟩
  obtain ⟨-, hnofault⟩ := reaches_induction hkept ⟨hv, hs⟩ h
  exact hnofault

end Sys2Proof.Machine

/-! ## Datapath: the ALU, the cycle of control signals, and the step -/

namespace Sys2Proof.Machine

/-! ### The ALU (R90, R91) -/

/-- Settles O11: the two sums are those of the library's words, and every other tag has its value as written. -/
theorem aluAddsAndSubtractsModulo : Obligations.AluAddsAndSubtractsModulo := by
  intro draw a b
  refine ⟨BitVec.toNat_add a b, ?_, rfl, rfl, rfl, rfl⟩
  have hsub : (alu draw a b .sub).toNat = (2 ^ 32 - b.toNat + a.toNat) % 2 ^ 32 := BitVec.toNat_sub a b
  omega

/-! ### The Execution Unit, row by row of the control table (R78 to R82) -/

/-- Signals that neither jump nor branch send step 3's result to steps 4 and 5. -/
theorem executionUnit_eq_unitMemoryPath {cs : ControlSignals} (hjump : cs.jump = false) (hbranch : cs.branch = false)
    (f : Fields) (s : State) : executionUnit cs f s = unitMemoryPath cs f (aluResult cs f s) s := by
  simp [executionUnit, hjump, hbranch]

/-- Signals that neither jump, branch nor load send step 3's result to the write-back (R82). -/
theorem executionUnit_eq_unitWriteBack {cs : ControlSignals} (hjump : cs.jump = false) (hbranch : cs.branch = false)
    (hload : cs.memtoReg = false) (f : Fields) (s : State) :
    executionUnit cs f s = unitWriteBack cs f (aluResult cs f s) s := by
  rw [executionUnit_eq_unitMemoryPath hjump hbranch]
  simp [unitMemoryPath, hload]

theorem executionUnit_add (v : Variant) (f : Fields) (s : State) :
    executionUnit (controlSignals v 0x00#6 0x20#6) f s =
      .done (s.setReg f.rd (alu s.draw (s.reg f.rs) (s.reg f.rt) .add)) false :=
  executionUnit_eq_unitWriteBack rfl rfl rfl f s

theorem executionUnit_sub (v : Variant) (f : Fields) (s : State) :
    executionUnit (controlSignals v 0x00#6 0x22#6) f s =
      .done (s.setReg f.rd (alu s.draw (s.reg f.rs) (s.reg f.rt) .sub)) false :=
  executionUnit_eq_unitWriteBack rfl rfl rfl f s

theorem rTypeAluOp_of_other {funct : BitVec 6} (hadd : funct ≠ 0x20#6) (hsub : funct ≠ 0x22#6) :
    rTypeAluOp funct = .reset := by
  rw [rTypeAluOp, if_neg hadd, if_neg hsub]

/-- R-type of another funct writes the draw, which is used up (R91, R95). -/
theorem executionUnit_rtypeOther {funct : BitVec 6} (hadd : funct ≠ 0x20#6) (hsub : funct ≠ 0x22#6) (v : Variant)
    (f : Fields) (s : State) :
    executionUnit (controlSignals v 0x00#6 funct) f s =
      .done (s.setReg f.rd (alu s.draw (s.reg f.rs) (s.reg f.rt) .reset)).takeDraw false := by
  have hop : (controlSignals v 0x00#6 funct).aluOp = .reset := rTypeAluOp_of_other hadd hsub
  rw [executionUnit_eq_unitWriteBack rfl rfl rfl, aluResult, unitWriteBack, hop]
  rfl

theorem executionUnit_addi (v : Variant) (funct : BitVec 6) (f : Fields) (s : State) :
    executionUnit (controlSignals v 0x08#6 funct) f s =
      .done (s.setReg f.rt (alu s.draw (s.reg f.rs) f.imm .add)) false :=
  executionUnit_eq_unitWriteBack rfl rfl rfl f s

/-- A branch is taken when step 2's difference is not zero, and otherwise nothing is written (R79). -/
theorem executionUnit_bne (v : Variant) (funct : BitVec 6) (f : Fields) (s : State) :
    executionUnit (controlSignals v 0x05#6 funct) f s =
      if branchTaken (alu s.draw (s.reg f.rs) (s.reg f.rt) .sub) then .done (s.setPc (branchTarget s.pc f.imm)) true
      else .done s false := by
  simp [executionUnit, unitMemoryPath, unitWriteBack, branchTaken, branchTarget, controlSignals,
    ControlSignals.cleared]

/-- Step 1 of V1: the register jump (R78). -/
theorem executionUnit_j {s : State} (hv : s.config.variant = .v1) (funct : BitVec 6) (f : Fields) :
    executionUnit (controlSignals .v1 0x02#6 funct) f s = .done (s.setPc (s.reg f.rs)) true :=
  if_pos ⟨hv, rfl⟩

/-- Step 4 of V2 loads the addressed word into `x[rt]`, and takes precedence over step 5 (R81). -/
theorem unitMemoryPath_of_some {cs : ControlSignals} {s : State} {r v : Word} (hv : s.config.variant = .v2)
    (hload : cs.memtoReg = true) (hread : s.memRead (s.base + r) = some v) (f : Fields) :
    unitMemoryPath cs f r s = .done (s.setReg f.rt v) false := by
  simp [unitMemoryPath, hv, hload, hread]

/-- Step 4 of V2 raises the data fault outside memory (R81). -/
theorem unitMemoryPath_of_none {cs : ControlSignals} {s : State} {r : Word} (hv : s.config.variant = .v2)
    (hload : cs.memtoReg = true) (hread : s.memRead (s.base + r) = none) (f : Fields) :
    unitMemoryPath cs f r s = .dataOutOfBounds (s.base + r) := by
  simp [unitMemoryPath, hv, hload, hread]

/-- The cleared signals write nothing: step 3's result is discarded (R100). -/
theorem executionUnit_cleared (f : Fields) (s : State) : executionUnit .cleared f s = .done s false :=
  executionUnit_eq_unitWriteBack rfl rfl rfl f s

/-! ### The Execution Loop around it (R84 to R87) -/

/-- Without the jump signal the loop only advances what the unit did not redirect (R86). -/
theorem advanceLoop_of_not_jump {cs : ControlSignals} (hjump : cs.jump = false) (f : Fields) (a : Word)
    (redirected : Bool) (t : State) :
    advanceLoop cs f a redirected t = if redirected then t else t.setPc (a + 4) := by
  simp [advanceLoop, hjump]

/-- The direct-jump rule of V1, on the `pc` that the unit left (R87). -/
theorem advanceLoop_j {t : State} (hv : t.config.variant = .v1) {f : Fields} (hop : f.opcode = 0x02#6)
    (funct : BitVec 6) (a : Word) :
    advanceLoop (controlSignals .v1 0x02#6 funct) f a true t = directJump a f.imm t :=
  if_pos ⟨hv, rfl, hop⟩

/-- Settles O34: the jump signal of V1 selects step 1 of the unit and the direct rule of the loop. -/
theorem jumpIsTwoRules : Obligations.JumpIsTwoRules := by
  intro f s hv hop
  rw [hop]
  exact ⟨executionUnit_j hv f.funct f, advanceLoop_j (t := s.setPc (s.reg f.rs)) hv hop f.funct s.pc⟩

@[simp] theorem decodeFields_opcode (w : Word) : (decodeFields w).opcode = opcodeOf w := rfl
@[simp] theorem decodeFields_funct (w : Word) : (decodeFields w).funct = functOf w := rfl

theorem executeWord_of_hlt {w : Word} (h : opcodeOf w = 0x3F#6) (s : State) : executeWord w s = s.endRun .halted :=
  if_pos h

section ExecuteWord

variable {w : Word} {s : State} {cs : ControlSignals} (hhlt : opcodeOf w ≠ 0x3F#6)
  (hcs : controlSignals s.config.variant (opcodeOf w) (functOf w) = cs)
include hhlt hcs

/-- The loop takes over the state the unit is done with (R86). -/
theorem executeWord_of_done {t : State} {redirected : Bool}
    (hunit : executionUnit cs (decodeFields w) s = .done t redirected) :
    executeWord w s = advanceLoop cs (decodeFields w) s.pc redirected t := by
  simp only [executeWord, decodeFields_opcode, decodeFields_funct, hhlt, if_false, hcs, hunit]

/-- A data fault of the unit ends the run (R102). -/
theorem executeWord_of_dataOutOfBounds {ea : Word}
    (hunit : executionUnit cs (decodeFields w) s = .dataOutOfBounds ea) :
    executeWord w s = s.endRun .faultDataOob := by
  simp only [executeWord, decodeFields_opcode, decodeFields_funct, hhlt, if_false, hcs, hunit]

/-- Where the unit redirects nothing and no direct jump follows, the loop advances `pc` (R86). -/
theorem executeWord_of_advance (hjump : cs.jump = false) {t : State}
    (hunit : executionUnit cs (decodeFields w) s = .done t false) : executeWord w s = t.setPc (s.pc + 4) := by
  rw [executeWord_of_done hhlt hcs hunit, advanceLoop_of_not_jump hjump]
  rfl

end ExecuteWord

/-! ### The datapath cycle is the step (R89) -/

theorem exec_bne_eq_executeWord {w : Word} (h : opcodeOf w = 0x05#6) (s : State) :
    exec (.bne (rsOf w) (rtOf w) (imm16Of w)) s = .next (executeWord w s) := by
  have hhlt : opcodeOf w ≠ 0x3F#6 := by rw [h]; decide
  have hunit := executionUnit_bne s.config.variant (functOf w) (decodeFields w) s
  rw [exec, execBne]
  by_cases htaken : branchTaken (alu s.draw (s.reg (rsOf w)) (s.reg (rtOf w)) .sub) = true
  · rw [if_pos htaken, executeWord_of_done hhlt (by rw [h]) (hunit.trans (if_pos htaken)), advanceLoop_of_not_jump rfl]
    rfl
  · rw [if_neg htaken, executeWord_of_advance hhlt (by rw [h]) rfl (hunit.trans (if_neg htaken))]
    rfl

theorem exec_j_eq_executeWord {w : Word} {s : State} (h : opcodeOf w = 0x02#6) (hv : s.config.variant = .v1) :
    exec (.j (rsOf w) (bits20to16 w) (imm16Of w)) s = .next (executeWord w s) := by
  obtain ⟨hunit, hloop⟩ := jumpIsTwoRules (decodeFields w) s hv h
  rw [exec_j_of_v1 hv, executeWord_of_done (by rw [h]; decide) (by rw [hv]; rfl) hunit, hloop]
  rfl

theorem exec_lw_eq_executeWord {w : Word} {s : State} (h : opcodeOf w = 0x23#6) (hv : s.config.variant = .v2) :
    exec (.lw (rsOf w) (rtOf w) (imm16Of w)) s = .next (executeWord w s) := by
  have hhlt : opcodeOf w ≠ 0x3F#6 := by rw [h]; decide
  have hunit := executionUnit_eq_unitMemoryPath (cs := controlSignals .v2 0x23#6 (functOf w)) rfl rfl (decodeFields w) s
  rw [exec_lw_of_v2 hv, loadWord]
  cases hread : s.memRead (lwAddress (rsOf w) (imm16Of w) s) with
  | some v =>
    rw [executeWord_of_advance hhlt (by rw [h, hv]) rfl (hunit.trans (unitMemoryPath_of_some hv rfl hread _))]
    rfl
  | none =>
    rw [executeWord_of_dataOutOfBounds hhlt (by rw [h, hv]) (hunit.trans (unitMemoryPath_of_none hv rfl hread _))]

/-- The meaning of the instruction a word decodes to is what the datapath does with the word. -/
theorem exec_decode_eq_executeWord (w : Word) (s : State) :
    exec (decode s.config.variant w) s = .next (executeWord w s) := by
  obtain ⟨h, hf, hi⟩ | ⟨h, hf, hi⟩ | ⟨h, ⟨hadd, hsub⟩, hi⟩ | ⟨h, hi⟩ | ⟨h, hi⟩ | ⟨h, hv, hi⟩ | ⟨h, hv, hi⟩ | ⟨h, hi⟩ |
    ⟨h, hi⟩ := decode_cases s.config.variant w
  · rw [hi, executeWord_of_advance (by rw [h]; decide) (by rw [h, hf]) rfl (executionUnit_add _ _ s)]; rfl
  · rw [hi, executeWord_of_advance (by rw [h]; decide) (by rw [h, hf]) rfl (executionUnit_sub _ _ s)]; rfl
  · rw [hi, executeWord_of_advance (by rw [h]; decide) (by rw [h]) rfl (executionUnit_rtypeOther hadd hsub _ _ s)]; rfl
  · rw [hi, executeWord_of_advance (by rw [h]; decide) (by rw [h]) rfl (executionUnit_addi _ _ _ s)]; rfl
  · rw [hi, exec_bne_eq_executeWord h]
  · rw [hi, exec_j_eq_executeWord h hv]
  · rw [hi, exec_lw_eq_executeWord h hv]
  · rw [hi, executeWord_of_hlt h]; rfl
  · obtain ⟨-, -, -, -, -, hhlt⟩ := ne_of_not_recognized h
    rw [hi, executeWord_of_advance hhlt (controlSignals_of_not_recognized h _) rfl (executionUnit_cleared _ s)]; rfl

/-- Settles O27: inside memory the fetch answers the word, and the step is the meaning of what it decodes to. -/
theorem stepRunsTheDecodedInstruction : Obligations.StepRunsTheDecodedInstruction := by
  rintro s i hs hb rfl -
  exact step_of_fetch hs (if_pos hb)

/-- Settles O33: both fetch alike, and the datapath gives a fetched word its instruction's meaning. -/
theorem datapathCycleIsTheStep : Obligations.DatapathCycleIsTheStep := by
  intro s hs
  rw [datapathCycle]
  obtain ⟨-, hf⟩ | ⟨-, hf⟩ := fetch_cases s
  · rw [step_of_fetch hs hf, hf, exec_decode_eq_executeWord]
  · simp only [step, hs, hf]

end Sys2Proof.Machine

/-! ## Arithmetic: ADD, SUB, ADDI and R-type of another funct -/

namespace Sys2Proof.Machine

/-- Settles O13: the mask fixes opcode and `funct`, and the effect is the write-back of the ALU's sum. -/
theorem addWritesTheSum : Obligations.AddWritesTheSum := by
  refine ⟨fun v w h => ?_, fun _ => rfl, fun rs rt rd g s => ?_⟩
  · obtain ⟨hop, hfunct⟩ := (opcode_funct_mask_iff w 0x00#6 0x20#6).1 h
    rw [decode_of_rtype hop, decodeRType_of_add hfunct]
  · exact ⟨s.writeBack rd (s.reg rs + s.reg rt), rfl, writesAndAdvances_writeBack s rd _⟩

/-- Settles O14: the mask fixes opcode and `funct`, and the effect is the write-back of the ALU's difference. -/
theorem subWritesTheDifference : Obligations.SubWritesTheDifference := by
  refine ⟨fun v w h => ?_, fun _ => rfl, fun rs rt rd g s => ?_⟩
  · obtain ⟨hop, hfunct⟩ := (opcode_funct_mask_iff w 0x00#6 0x22#6).1 h
    rw [decode_of_rtype hop, decodeRType_of_sub hfunct]
  · exact ⟨s.writeBack rd (s.reg rs - s.reg rt), rfl, writesAndAdvances_writeBack s rd _⟩

/-- Settles O15: the mask fixes the opcode, and the effect is the write-back of the ALU's sum with the immediate. -/
theorem addiAddsTheImmediate : Obligations.AddiAddsTheImmediate := by
  refine ⟨fun v w h => ?_, fun _ _ => rfl, fun rs rt imm16 s => ?_⟩
  · exact decode_of_addi ((opcode_mask_iff w 0x08#6).1 h) v
  · exact ⟨s.writeBack rt (s.reg rs + sext32 imm16), rfl, writesAndAdvances_writeBack s rt _⟩

/-- Using up the draw is outside what `KeepsRest` speaks of. -/
theorem KeepsRest.takeDraw {s t : State} (h : KeepsRest s t) : KeepsRest s t.takeDraw where
  config := h.config
  status := h.status
  base := h.base
  bytes := h.bytes
  mem := h.mem

/-- Settles O16: a `funct` that is neither ADD's nor SUB's leaves the tag unset (R60), and the value written is the
draw, whose use the frame does not see. -/
theorem otherFunctWritesSomeValue : Obligations.OtherFunctWritesSomeValue := by
  refine ⟨fun v w h hadd hsub => ?_, fun v funct hadd hsub => ?_, fun rs rt rd g funct s => ?_⟩
  · rw [decode_of_rtype ((opcode_mask_iff w 0x00#6).1 h), decodeRType_of_other hadd hsub]
  · rw [controlSignals, if_pos rfl, rTypeAluOp_of_other hadd hsub]
  · obtain ⟨written, pc, -, rest⟩ := writesAndAdvances_writeBack s rd s.draw
    exact ⟨s.draw, (s.writeBack rd s.draw).takeDraw, rfl, written, pc, rest.takeDraw⟩

end Sys2Proof.Machine

/-! ## Load: LW of V2 -/

namespace Sys2Proof.Machine

/-- The address LW uses is the wrapping sum of base word, register and immediate (R96; D23). -/
theorem lwAddress_eq_add (rs : RegIdx) (imm16 : BitVec 16) (s : State) :
    lwAddress rs imm16 s = s.base + (s.reg rs + sext32 imm16) := rfl

/-- Inside memory LW writes back the whole word that holds the address (R43, R96). -/
theorem loadWord_of_index_lt {rs : RegIdx} {imm16 : BitVec 16} {s : State} (rt : RegIdx)
    (h : (lwAddress rs imm16 s).toNat / 4 < s.config.memWords) :
    loadWord rs rt imm16 s = s.writeBack rt (s.word ((lwAddress rs imm16 s).toNat / 4)) := by
  have hread : s.memRead (lwAddress rs imm16 s) = some (s.word ((lwAddress rs imm16 s).toNat / 4)) := if_pos h
  simp only [loadWord, hread]

/-- Outside memory LW ends the run with the data fault (R102; D8). -/
theorem loadWord_of_memWords_le {rs : RegIdx} {imm16 : BitVec 16} {s : State} (rt : RegIdx)
    (h : s.config.memWords ≤ (lwAddress rs imm16 s).toNat / 4) :
    loadWord rs rt imm16 s = s.endRun .faultDataOob := by
  have hread : s.memRead (lwAddress rs imm16 s) = none := if_neg h.not_gt
  simp only [loadWord, hread]

/-- Settles O18: the mask fixes the opcode, and the word index of the address selects the write-back of the addressed
word or the data fault. -/
theorem lwLoadsTheAddressedWord : Obligations.LwLoadsTheAddressedWord := by
  refine ⟨fun w h => ?_, fun _ => rfl, fun rs rt imm16 s hv => ?_⟩
  · exact decode_of_lw ((opcode_mask_iff w 0x23#6).1 h)
  · rw [← lwAddress_eq_add, exec_lw_of_v2 hv]
    constructor
    · intro hin
      exact ⟨_, rfl, loadWord_of_index_lt rt hin ▸ writesAndAdvances_writeBack s rt _⟩
    · intro hout
      exact ⟨_, rfl, loadWord_of_memWords_le rt hout ▸ onlySetsStatus_endRun s _⟩

end Sys2Proof.Machine

/-! ## Control: the range of J's target, and the effects of BNE, J and HLT -/

namespace Sys2Proof.Machine

/-! ### The direct target as a number (R87, R98) -/

/-- The mask of the direct-jump rule keeps bits 31:28. -/
theorem and_top_mask (w : Word) : w &&& 0xF0000000#32 = w.extractLsb' 28 4 ++ 0#28 := by
  apply BitVec.eq_of_getLsbD_eq
  intro i hi
  simp only [BitVec.getLsbD_and, BitVec.getLsbD_append, BitVec.getLsbD_extractLsb']
  interval_cases i <;> simp

theorem toNat_and_top_mask (w : Word) : (w &&& 0xF0000000#32).toNat = 2 ^ 28 * (w.toNat / 2 ^ 28) := by
  rw [and_top_mask, BitVec.toNat_append, toNat_field, BitVec.toNat_zero, Nat.or_zero, Nat.shiftLeft_eq]
  omega

theorem toNat_shiftLeft_two (a : Word) : (a <<< 2).toNat = 4 * a.toNat % 2 ^ 32 := by
  rw [BitVec.toNat_shiftLeft, Nat.shiftLeft_eq, Nat.mul_comm]

/-- An immediate whose shift stays below bit 28 does not meet the top bits: the two parts add. -/
theorem toNat_directTarget_of_lt (top : Word) {imm : Word} (h : imm.toNat < 2 ^ 26) :
    (directTarget top imm).toNat = top.toNat / 2 ^ 28 * 2 ^ 28 + imm.toNat * 4 := by
  have hlow : (imm <<< 2).toNat = imm.toNat * 4 := by rw [toNat_shiftLeft_two]; omega
  have hdisjoint : imm.toNat * 4 < 2 ^ 28 := by omega
  rw [directTarget, BitVec.toNat_or, toNat_and_top_mask, hlow, ← Nat.two_pow_add_eq_or_of_lt hdisjoint, Nat.mul_comm]

/-- The top bits only add to the shifted immediate. -/
theorem shiftLeft_two_le_directTarget (top imm : Word) : (imm <<< 2).toNat ≤ (directTarget top imm).toNat := by
  rw [directTarget, BitVec.toNat_or]
  exact Nat.right_le_or

theorem toNat_sext32_of_le {v : BitVec 16} (h : 0x8000 ≤ v.toNat) : (sext32 v).toNat = 0xFFFF0000 + v.toNat := by
  obtain ⟨-, hor, -⟩ := signExtensionKeepsTheSignedValue v
  have hadd : 2 ^ 16 * 0xFFFF + v.toNat = 2 ^ 16 * 0xFFFF ||| v.toNat := Nat.two_pow_add_eq_or_of_lt v.isLt _
  rw [hor h, BitVec.toNat_or, zext32, BitVec.toNat_setWidth_of_le (by decide), Nat.or_comm]
  exact hadd.symm

/-- Settles O22: a field below 0x8000 is its own extension and stays below the top bits, and one from 0x8000 on
extends to at least 0xFFFF8000, whose shift the target is not below. -/
theorem jumpTargetRange : Obligations.JumpTargetRange := by
  intro top imm16
  obtain ⟨-, -, hsmall⟩ := signExtensionKeepsTheSignedValue imm16
  refine ⟨directTarget_mod_four top _, fun h => ?_, fun h => ?_⟩
  · rw [toNat_directTarget_of_lt top (by rw [hsmall h]; omega), hsmall h]
  · have hle := shiftLeft_two_le_directTarget top (sext32 imm16)
    rw [toNat_shiftLeft_two, toNat_sext32_of_le h] at hle
    omega

/-! ### BNE, J and HLT (R97 to R99) -/

/-- BNE only sets `pc`, to the branch target exactly when the registers differ (R97). -/
theorem exec_bne_eq_setPc (rs rt : RegIdx) (imm16 : BitVec 16) (s : State) :
    exec (.bne rs rt imm16) s =
      .next (s.setPc (if s.reg rs ≠ s.reg rt then branchTarget s.pc (sext32 imm16) else s.pc + 4)) := by
  simp only [exec, execBne, branchTaken_sub]
  split
  · rfl
  · rfl

/-- Settles O20: the mask fixes the opcode, and the effect is that of setting `pc`. -/
theorem bneBranchesWhenRegistersDiffer : Obligations.BneBranchesWhenRegistersDiffer := by
  refine ⟨fun v w h => ?_, fun _ _ => rfl, fun rs rt imm16 s => ?_⟩
  · exact decode_of_bne ((opcode_mask_iff w 0x05#6).1 h) v
  · exact ⟨_, exec_bne_eq_setPc rs rt imm16 s, onlySetsPc_setPc s _⟩

/-- Settles O21: the mask fixes the opcode, and each value of JTopSource gives the top bits of the one `pc` set. -/
theorem jumpCombinesTopBitsAndImmediate : Obligations.JumpCombinesTopBitsAndImmediate := by
  refine ⟨fun w h => ?_, fun _ => rfl, fun rs g imm16 s hv => ?_⟩
  · exact decode_of_j ((opcode_mask_iff w 0x02#6).1 h)
  · have hset {src : JTopSource} (hsrc : s.config.jTopSource = src) :
        OnlySetsPc (directTarget (jumpTop src s.pc (s.reg rs)) (sext32 imm16)) s
          (s.setPc (directTarget (jumpTop s.config.jTopSource s.pc (s.reg rs)) (sext32 imm16))) :=
      hsrc ▸ onlySetsPc_setPc s _
    exact ⟨_, exec_j_of_v1 hv rs g imm16, hset, hset, hset⟩

/-- Settles O23: the mask fixes the opcode, and the effect is that of ending the run. -/
theorem hltOnlyHalts : Obligations.HltOnlyHalts := by
  refine ⟨fun v w h => ?_, fun _ _ => rfl, fun g s => ?_⟩
  · exact decode_of_hlt ((opcode_mask_iff w 0x3F#6).1 h) v
  · exact ⟨_, rfl, onlySetsStatus_endRun s .halted⟩

end Sys2Proof.Machine

/-! ## Unrecognized opcodes: the no-op -/

namespace Sys2Proof.Machine

/-- Settles O24: an opcode that is none of the named ones is outside the control table, the opcodes outside it are
counted in each variant, and the effect is that of advancing. -/
theorem unrecognizedOpcodeIsNoOp : Obligations.UnrecognizedOpcodeIsNoOp := by
  refine ⟨fun v w ⟨h0, h5, h8, h3F, hj, hlw⟩ => ?_, fun v => ?_, fun op g s => ?_⟩
  · have hout : opcodeOf w ∉ recognizedOpcodes v := by
      simp only [mem_recognizedOpcodes, not_or]
      exact ⟨h0, h8, h5, hj, hlw, h3F⟩
    exact ⟨decode_of_not_recognized hout, controlSignals_of_not_recognized hout⟩
  · cases v
    · decide
    · decide
  · exact ⟨s.advance, rfl, onlySetsPc_advance s⟩

end Sys2Proof.Machine

/-! ## Exceptions: the three terminal events -/

namespace Sys2Proof.Machine

/-! ### Ending a run (R101, R108) -/

/-- A running block that fetches outside memory only takes the status OUT_OF_BOUNDS (R103). -/
theorem step_of_memWords_le {s : State} (hs : s.status = .running) (h : s.config.memWords ≤ s.pc.toNat / 4) :
    step s = .next (s.endRun .outOfBounds) := by
  have hf : s.fetch = none := if_neg h.not_gt
  simp only [step, hs, hf]

/-- Settles O28: the step is that of ending the run. -/
theorem outOfBoundsFetchEndsTheRun : Obligations.OutOfBoundsFetchEndsTheRun := by
  intro s hs h
  exact ⟨_, step_of_memWords_le hs h, onlySetsStatus_endRun s _⟩

/-- Settles O29: the step is the LW's meaning, and that faults at such an index (O18). -/
theorem dataOutOfBoundsEndsTheRun : Obligations.DataOutOfBoundsEndsTheRun := by
  intro s rs rt imm16 hs hv hb hi hout
  obtain ⟨-, -, heffect⟩ := lwLoadsTheAddressedWord
  obtain ⟨-, hfaults⟩ := heffect rs rt imm16 s hv
  rw [step_of_fetch hs (if_pos hb), hv, hi]
  exact hfaults hout

/-- A cycle that ends the run is one terminal event: the other shapes of a next state keep `status`. -/
theorem step_eq_endRun_of_ended {s t : State} (hs : s.status = .running) (h : step s = .next t)
    (ht : t.status ≠ .running) : t = s.endRun t.status := by
  obtain rfl | rfl | hexec := step_next_cases h
  · exact absurd hs ht
  · rfl
  · obtain ⟨r, v, rfl⟩ | ⟨r, v, rfl⟩ | ⟨a, rfl⟩ | ⟨st, -, rfl⟩ := exec_next_cases hexec
    · exact absurd hs ht
    · exact absurd hs ht
    · exact absurd hs ht
    · rfl

/-- Settles O31: such a cycle is one terminal event. -/
theorem terminalEventsArePrecise : Obligations.TerminalEventsArePrecise := by
  intro s t hs h ht
  have hframe := onlySetsStatus_endRun s t.status
  rwa [← step_eq_endRun_of_ended hs h ht] at hframe

/-! ### The instruction that raises `DataOutOfBounds` (R38, R96, R102) -/

theorem memRead_eq_none_iff (s : State) (a : Word) : s.memRead a = none ↔ s.config.memWords ≤ a.toNat / 4 := by
  simp [State.memRead, State.wordAt]

/-- Only an LW of V2 raises it, with its own address, and when that lies outside memory. -/
theorem raisesDataOutOfBounds_eq_some_iff {i : Instr} {s : State} {a : Word} :
    raisesDataOutOfBounds i s = some a ↔
      ∃ rs rt imm16, i = .lw rs rt imm16 ∧ s.config.variant = .v2 ∧ s.config.memWords ≤ a.toNat / 4 ∧
        lwAddress rs imm16 s = a := by
  constructor
  · intro h
    cases i with
    | lw rs rt imm16 =>
      simp only [raisesDataOutOfBounds, Option.isNone_iff_eq_none, memRead_eq_none_iff] at h
      split at h <;> cases h
      next hraises =>
        obtain ⟨hv, hout⟩ := hraises
        exact ⟨rs, rt, imm16, rfl, hv, hout, rfl⟩
    | _ => cases h
  · rintro ⟨rs, rt, imm16, rfl, hv, hout, rfl⟩
    exact if_pos ⟨hv, Option.isNone_iff_eq_none.2 ((memRead_eq_none_iff s _).2 hout)⟩

/-- An instruction ends a run in FAULT_DATA_OOB exactly when it raises `DataOutOfBounds`. -/
theorem exec_status_eq_faultDataOob_iff {i : Instr} {s t : State} (hs : s.status = .running)
    (h : exec i s = .next t) : t.status = .faultDataOob ↔ ∃ a, raisesDataOutOfBounds i s = some a := by
  constructor
  · intro hfault
    obtain hkeep | ⟨hhalt, -⟩ | ⟨-, hLW, hv⟩ := exec_status_cases h
    · cases hs.symm.trans (hkeep.symm.trans hfault)
    · cases hhalt.symm.trans hfault
    · cases i with
      | lw rs rt imm16 =>
        cases (exec_lw_of_v2 hv rs rt imm16).symm.trans h
        obtain hin | hout := Nat.lt_or_ge ((lwAddress rs imm16 s).toNat / 4) s.config.memWords
        · rw [loadWord_of_index_lt rt hin, writeBack_status, hs] at hfault
          cases hfault
        · exact ⟨_, raisesDataOutOfBounds_eq_some_iff.2 ⟨rs, rt, imm16, rfl, hv, hout, rfl⟩⟩
      | _ => cases hLW
  · rintro ⟨a, ha⟩
    obtain ⟨rs, rt, imm16, rfl, hv, hout, rfl⟩ := raisesDataOutOfBounds_eq_some_iff.1 ha
    rw [exec_lw_of_v2 hv, loadWord_of_memWords_le rt hout] at h
    cases h
    rfl

/-- Settles O56: the address reported is the one the fetched instruction raises, and none is raised in a cycle
that does not fault. -/
theorem faultAddressIsObserved : Obligations.FaultAddressIsObserved := by
  intro s t hs h
  obtain ⟨hb, hf⟩ | ⟨hb, hf⟩ := fetch_cases s
  · have hobserved : dataFaultAddress s =
        raisesDataOutOfBounds (decode s.config.variant (s.word (s.pc.toNat / 4))) s := by
      simp only [dataFaultAddress, hs, hf]
    rw [step_of_fetch hs hf] at h
    have hfault := exec_status_eq_faultDataOob_iff hs h
    rw [hobserved]
    constructor
    · intro ht
      obtain ⟨a, ha⟩ := hfault.1 ht
      obtain ⟨rs, rt, imm16, hi, -, -, rfl⟩ := raisesDataOutOfBounds_eq_some_iff.1 ha
      exact ⟨rs, rt, imm16, hi, ha⟩
    · intro ht
      exact Option.eq_none_iff_forall_ne_some.2 fun a ha => ht (hfault.2 ⟨a, ha⟩)
  · rw [step_of_memWords_le hs hb] at h
    cases h
    exact ⟨nofun, fun _ => by simp only [dataFaultAddress, hs, hf]⟩

/-! ### The status after a cycle (R107) -/

/-- A word is a HLT by its opcode alone (R70). -/
theorem decode_mnemonic_HLT_iff (v : Variant) (w : Word) : (decode v w).mnemonic = .HLT ↔ opcodeOf w = 0x3F#6 := by
  constructor
  · intro h
    cases hi : decode v w with
    | hlt g =>
      have hw : encode (.hlt g) = w := hi ▸ encodeOfDecodeIsTheWord v w
      rw [← hw]
      exact opcodeOf_encodeBare 0x3F#6 g
    | _ => rw [hi] at h; cases h
  · intro h
    rw [decode_of_hlt h]
    rfl

/-- The fields with which a word decodes to LW are its own (R55). -/
theorem decode_eq_lw_iff {v : Variant} {w : Word} {rs rt : RegIdx} {imm16 : BitVec 16} :
    decode v w = .lw rs rt imm16 ↔
      opcodeOf w = 0x23#6 ∧ v = .v2 ∧ rsOf w = rs ∧ rtOf w = rt ∧ imm16Of w = imm16 := by
  constructor
  · intro h
    obtain ⟨hop, rfl⟩ := (decode_mnemonic_J_LW v w).2 (congrArg Instr.mnemonic h)
    rw [decode_of_lw hop] at h
    cases h
    exact ⟨hop, rfl, rfl, rfl, rfl⟩
  · rintro ⟨hop, rfl, rfl, rfl, rfl⟩
    exact decode_of_lw hop

/-- An instruction ends a run in HALTED exactly when it is a HLT. -/
theorem exec_status_eq_halted_iff {i : Instr} {s t : State} (hs : s.status = .running) (h : exec i s = .next t) :
    t.status = .halted ↔ i.mnemonic = .HLT := by
  constructor
  · intro hhalted
    obtain hkeep | ⟨-, hHLT⟩ | ⟨hfault, -, -⟩ := exec_status_cases h
    · cases hs.symm.trans (hkeep.symm.trans hhalted)
    · exact hHLT
    · cases hfault.symm.trans hhalted
  · intro hHLT
    cases i with
    | hlt g => cases h; rfl
    | _ => cases hHLT

theorem exec_status_ne_outOfBounds {i : Instr} {s t : State} (hs : s.status = .running) (h : exec i s = .next t) :
    t.status ≠ .outOfBounds := by
  obtain hkeep | ⟨hhalt, -⟩ | ⟨hfault, -, -⟩ := exec_status_cases h
  · rw [hkeep, hs]; nofun
  · rw [hhalt]; nofun
  · rw [hfault]; nofun

/-- Whether a word's instruction raises `DataOutOfBounds`, in terms of the variant and the word's fields. -/
theorem exists_raisesDataOutOfBounds_decode_iff (s : State) (w : Word) :
    (∃ a, raisesDataOutOfBounds (decode s.config.variant w) s = some a) ↔
      s.config.variant = .v2 ∧ opcodeOf w = 0x23#6 ∧
        s.config.memWords ≤ (lwAddress (rsOf w) (imm16Of w) s).toNat / 4 := by
  constructor
  · rintro ⟨a, ha⟩
    obtain ⟨rs, rt, imm16, hi, hv, hout, rfl⟩ := raisesDataOutOfBounds_eq_some_iff.1 ha
    obtain ⟨hop, -, rfl, rfl, rfl⟩ := decode_eq_lw_iff.1 hi
    exact ⟨hv, hop, hout⟩
  · rintro ⟨hv, hop, hout⟩
    have hi := decode_eq_lw_iff.2 ⟨hop, hv, rfl, rfl, rfl⟩
    exact ⟨_, raisesDataOutOfBounds_eq_some_iff.2 ⟨_, _, _, hi, hv, hout, rfl⟩⟩

/-- Settles O30: the fetch bound decides first, and inside memory the fetched instruction does. -/
theorem statusAfterEachCycle : Obligations.StatusAfterEachCycle := by
  intro s t hs h
  obtain ⟨hend, -⟩ | ⟨-, hb, hstep⟩ | ⟨-, hb, hstep⟩ := step_cases s
  · exact absurd hs hend
  · cases hstep.symm.trans h
    exact ⟨iff_of_true rfl hb, iff_of_false nofun fun ⟨hin, _⟩ => hb.not_gt hin,
      iff_of_false nofun fun ⟨hin, _⟩ => hb.not_gt hin⟩
  · have hexec := hstep.symm.trans h
    refine ⟨iff_of_false (exec_status_ne_outOfBounds hs hexec) hb.not_ge, ?_, ?_⟩
    · rw [exec_status_eq_halted_iff hs hexec, decode_mnemonic_HLT_iff, and_iff_right hb]
    · rw [exec_status_eq_faultDataOob_iff hs hexec, exists_raisesDataOutOfBounds_decode_iff, and_iff_right hb,
        lwAddress_eq_add]

end Sys2Proof.Machine

/-! ## Reset and what a run never changes -/

namespace Sys2Proof.Machine

/-- Settles O42, by induction on the run: no step changes the configuration or the base word. -/
theorem configurationNeverChanges : Obligations.ConfigurationNeverChanges := by
  intro s t h
  refine reaches_induction (P := fun u => u.config = s.config ∧ u.base = s.base) ?_ ⟨rfl, rfl⟩ h
  rintro u u' ⟨hconfig, hbase⟩ hstep
  obtain ⟨hconfig', hbase', -⟩ := step_keeps_config_base_mem hstep
  exact ⟨hconfig'.trans hconfig, hbase'.trans hbase⟩

/-- Inside memory the fetch answers the word at the divided `pc` (R37). -/
theorem fetch_of_index_lt {s : State} (h : s.pc.toNat / 4 < s.config.memWords) :
    s.fetch = some (s.word (s.pc.toNat / 4)) := if_pos h

/-- Word 0 lies inside the memory of the reset configuration (log entry 2). -/
theorem reset_pc_index_lt : State.reset.pc.toNat / 4 < State.reset.config.memWords := by decide

/-- Settles O50: reset sets `pc` and `status`, and word 0, where `pc` stands, is inside memory. -/
theorem resetStartsAtWordZero : Obligations.ResetStartsAtWordZero :=
  ⟨rfl, rfl, fetch_of_index_lt reset_pc_index_lt⟩

end Sys2Proof.Machine
